-- ==== Sys2Proof/Word.lean ====
section
/-!
DEFINITION. The bit vectors the spec names as such (R8, R32): the packed byte and the operation select.
-/
namespace Sys2Proof

/-- R32: `Byte := BitVec 8`, a PackedFloat8 is the byte and nothing more (R61). -/
abbrev Byte := BitVec 8

/-- R70: the operation select `op[1:0]` of the wrapper. -/
abbrev OpBits := BitVec 2

end Sys2Proof
end

