-- ==== Sys2Proof/Config.lean ====
section
/-!
DEFINITION. What an implementation fixes (R7) and the one free value of the spec, the NaN draw (R111).
-/
namespace Sys2Proof

/-- R7, D1: the format of the native ports, fixed when the block is built. -/
inductive NativeFmt where
  | binary32
  | binary64
  deriving DecidableEq, Repr

/-- R7, D3: the encoder's exponent offset `ENCODE_EXP_ADJUST`. -/
inductive ExpAdjust where
  /-- 0, the normative value: `biasedExp = e + 7`. -/
  | normative
  /-- -1, the recorded alternative, not normative: `biasedExp = e + 6`. -/
  | alternative
  deriving DecidableEq, Repr

/-- The default of `NATIVE_FMT` (R7, D1), with which `State.reset` is built (log 2). -/
def Config.nativeFmt : NativeFmt := .binary32

/-- The value of `ENCODE_EXP_ADJUST` the machine is built with: the normative 0 (R7, R104, log 3). -/
def Config.encodeExpAdjust : ExpAdjust := .normative

/-- FREE VALUE (R7 `NAN_ENCODE`, R111, D6, log 4): the byte ENC8 gives at the `n`-th draw.
It has no body, so nothing can be proved of any of its values, nor that two draws agree or differ. -/
opaque Config.nanDraw : Nat → Byte

end Sys2Proof
end

