-- ==== Sys2Proof/Syntax.lean ====
section
/-!
DEFINITION. The syntax of the block: native patterns, what stands on an input port, the four operations as
instructions (R70, every row of spec/opcode_table.json), and the lines of a host program (R73).
-/
namespace Sys2Proof

/-- A native float bit pattern (R64): 32 bits of binary32 or 64 bits of binary64. -/
inductive Native where
  | b32 (w : BitVec 32)
  | b64 (w : BitVec 64)
  deriving DecidableEq, Repr

/-- The format a native pattern has. -/
def Native.fmt : Native → NativeFmt
  | .b32 _ => .binary32
  | .b64 _ => .binary64

/-- R32: the value a transaction's output port carries. -/
inductive Result where
  | byte (v : Byte)
  | native (v : Native)
  deriving DecidableEq, Repr

/-- Why an input port carries no defined bit vector of its width (R31, R203, R73). -/
inductive Unknown where
  /-- nothing drives the port (R203) -/
  | undriven
  /-- the input changes while the output settles (R203) -/
  | changing
  /-- the line names a temporary no earlier line wrote (spec/95 L3: "temporaries start undefined") -/
  | unwritten
  /-- the line feeds a native temporary to a byte port or a byte temporary to `x` (R73) -/
  | wrongKind
  /-- the native pattern has not the width of the port (R28: `W` is fixed by `NATIVE_FMT`) -/
  | wrongWidth
  deriving DecidableEq, Repr

/-- What stands on an input port (R31): a defined bit vector, or nothing a model may use (R203). -/
inductive Input (α : Type) where
  | driven (v : α)
  | unknown (why : Unknown)
  deriving DecidableEq, Repr

/-- The input ports by name (R28, R29). -/
inductive PortName where
  | op
  | a
  | b
  | x
  | p
  deriving DecidableEq, Repr

/-- The devices a transaction can be presented on: the wrapper (R29) and the four units (R28). -/
inductive Device where
  | wrapper
  | encoder
  | decoder
  | adder
  | multiplier
  deriving DecidableEq, Repr

/-- R32, R70: the four operations. -/
inductive Op where
  | enc8
  | dec8
  | add8
  | mul8
  deriving DecidableEq, Repr

/-- The instructions: one constructor per row of the opcode table, with the port values the operation reads (R68, R72). -/
inductive Instr where
  | enc8 (x : Native)
  | dec8 (a : Byte)
  | add8 (a b : Byte)
  | mul8 (a b : Byte)
  deriving DecidableEq, Repr

/-- An operand of a program line (R73): a literal, or a host temporary; or the host leaves the port
undriven or changes it while the output settles (R203). -/
inductive Src (α : Type) where
  | lit (v : α)
  | temp (t : Nat)
  | undriven
  | changing
  deriving DecidableEq, Repr

/-- One transaction of a host program (R73, R236): the device it is presented on, what is put on each of its input
ports, and first the temporary that takes the output. -/
inductive Line where
  | wrapper (t : Nat) (op : Input OpBits) (a b : Src Byte) (x : Src Native)
  | encoder (t : Nat) (x : Src Native)
  | decoder (t : Nat) (p : Src Byte)
  | adder (t : Nat) (a b : Src Byte)
  | multiplier (t : Nat) (a b : Src Byte)
  deriving DecidableEq, Repr

/-- The device a line is presented on. -/
def Line.device : Line → Device
  | .wrapper .. => .wrapper
  | .encoder .. => .encoder
  | .decoder .. => .decoder
  | .adder .. => .adder
  | .multiplier .. => .multiplier

/-- The temporary a line's output goes to (R73: `<t> <- …`). -/
def Line.dest : Line → Nat
  | .wrapper t _ _ _ _ => t
  | .encoder t _ => t
  | .decoder t _ => t
  | .adder t _ _ => t
  | .multiplier t _ _ => t

end Sys2Proof
end

