-- ==== Sys2Proof/Decode.lean ====
section
/-!
DEFINITION. From what stands on the input ports to an instruction, and back: the operation select (R70), the
transaction word of the wrapper (R72), the encoder of a transaction, and the opcode table's numbering of it.
-/
namespace Sys2Proof

/-- R28, R64: `W`, the width of the native ports. -/
def NativeFmt.width : NativeFmt → Nat
  | .binary32 => 32
  | .binary64 => 64

/-- The native pattern of format `fmt` with the bits `n` (its low `W` bits). -/
def Native.ofNat (fmt : NativeFmt) (n : Nat) : Native :=
  match fmt with
  | .binary32 => .b32 (BitVec.ofNat 32 n)
  | .binary64 => .b64 (BitVec.ofNat 64 n)

/-- The bits of a native pattern as one unsigned number (R41: one `W`-bit vector, no byte lanes). -/
def Native.toNat : Native → Nat
  | .b32 w => w.toNat
  | .b64 w => w.toNat

/-- R70: the operation each of the four select codes names; none is reserved (R71). -/
def Op.ofBits (o : OpBits) : Op :=
  if o = 0b00#2 then .enc8 else if o = 0b01#2 then .dec8 else if o = 0b10#2 then .add8 else .mul8

/-- R70: the select code of an operation. -/
def Op.bits : Op → OpBits
  | .enc8 => 0b00#2
  | .dec8 => 0b01#2
  | .add8 => 0b10#2
  | .mul8 => 0b11#2

/-- The operation an instruction is an instance of. -/
def Instr.op : Instr → Op
  | .enc8 _ => .enc8
  | .dec8 _ => .dec8
  | .add8 _ _ => .add8
  | .mul8 _ _ => .mul8

/-- Why no instruction is decoded: a port the operation reads carries no defined value (R203). -/
structure Reject where
  port : PortName
  why : Unknown
  deriving DecidableEq, Repr

/-- Reading a port the operation reads: a defined value, or a rejection by the port's name (R203). -/
def Input.read {α : Type} (port : PortName) : Input α → Except Reject α
  | .driven v => .ok v
  | .unknown why => .error ⟨port, why⟩

/-- R29, R70, R72: the instruction that stands on the ports of the wrapper. Only the ports the selected operation
reads are looked at. -/
def decodePorts (op : Input OpBits) (a b : Input Byte) (x : Input Native) : Except Reject Instr :=
  match op with
  | .unknown why => .error ⟨.op, why⟩
  | .driven o =>
    match Op.ofBits o with
    | .enc8 => (x.read .x).map Instr.enc8
    | .dec8 => (a.read .a).map Instr.dec8
    | .add8 => (a.read .a).bind fun va => (b.read .b).map (Instr.add8 va)
    | .mul8 => (a.read .a).bind fun va => (b.read .b).map (Instr.mul8 va)

/-- How many bits a transaction word has: `{op[1:0], a[7:0], b[7:0], x[W-1:0]}` (R72). -/
abbrev wordBits (fmt : NativeFmt) : Nat := 2 + 8 + 8 + fmt.width

/-- R72: the select field of a transaction word, its top two bits. -/
def wordOp (fmt : NativeFmt) (w : BitVec (wordBits fmt)) : OpBits := w.extractLsb' (fmt.width + 16) 2

/-- R72: the field `a` of a transaction word. -/
def wordA (fmt : NativeFmt) (w : BitVec (wordBits fmt)) : Byte := w.extractLsb' (fmt.width + 8) 8

/-- R72: the field `b` of a transaction word. -/
def wordB (fmt : NativeFmt) (w : BitVec (wordBits fmt)) : Byte := w.extractLsb' fmt.width 8

/-- R72: the field `x` of a transaction word, its low `W` bits. -/
def wordX (fmt : NativeFmt) (w : BitVec (wordBits fmt)) : Native := .ofNat fmt w.toNat

/-- R72: the instruction a transaction word stands for, when all its fields are driven. -/
def decodeWord (fmt : NativeFmt) (w : BitVec (wordBits fmt)) : Except Reject Instr :=
  decodePorts (.driven (wordOp fmt w)) (.driven (wordA fmt w)) (.driven (wordB fmt w)) (.driven (wordX fmt w))

/-- R72: the four fields put side by side, the select on top. -/
def packWord (fmt : NativeFmt) (op : OpBits) (a b : Byte) (x : Nat) : BitVec (wordBits fmt) :=
  op ++ a ++ b ++ BitVec.ofNat fmt.width x

/-- The transaction word of an instruction; fields the operation does not read are 0, as spec/95 L3 shows them (R29). -/
def encode (fmt : NativeFmt) : Instr → BitVec (wordBits fmt)
  | .enc8 x => packWord fmt Op.enc8.bits 0 0 x.toNat
  | .dec8 a => packWord fmt Op.dec8.bits a 0 0
  | .add8 a b => packWord fmt Op.add8.bits a b 0
  | .mul8 a b => packWord fmt Op.mul8.bits a b 0

/-- The select code in a word of spec/opcode_table.json, which gives each row the two bits `op[1:0]`, numbered 1 and 0,
of the `nbits` it hands over; the port is two bits wide, so no higher bit reaches it (log 10). -/
def tableOp (nbits w : Nat) : OpBits := BitVec.ofNat 2 (w % 2 ^ nbits)

/-- The instruction a word of the opcode table stands for, the operand fields the table gives no bits being 0. -/
def decodeTableWord (nbits w : Nat) : Option Instr :=
  (decodeWord Config.nativeFmt (packWord Config.nativeFmt (tableOp nbits w) 0 0 0)).toOption

/-- The line that presents a word of the opcode table on the wrapper, every operand field 0, its output going to `t0`
(log 9, log 10). -/
def tableLine (fmt : NativeFmt) (nbits w : Nat) : Line :=
  .wrapper 0 (.driven (tableOp nbits w)) (.lit 0) (.lit 0) (.lit (Native.ofNat fmt 0))

end Sys2Proof
end

