-- ==== Sys2Proof/Machine/Exact.lean ====
section
/-!
DEFINITION. Exact real values (R8): rationals with power-of-two denominators, held as `num * 2^exp`, never rounded;
and `frexp` (R101).
-/
namespace Sys2Proof.Machine

/-- R8: the exact value `num * 2^exp`. -/
structure Exact where
  num : Int
  exp : Int
  deriving DecidableEq, Repr

/-- The rational number an exact value is; for claims. -/
def Exact.toRat (r : Exact) : Rat := (r.num : Rat) * (2 : Rat) ^ r.exp

/-- An integer as an exact value. -/
def Exact.ofInt (n : Int) : Exact := ⟨n, 0⟩

/-- `-r`. -/
def Exact.neg (r : Exact) : Exact := ⟨-r.num, r.exp⟩

/-- R9: `abs(r)`. -/
def Exact.abs (r : Exact) : Exact := ⟨r.num.natAbs, r.exp⟩

/-- The numerator of `r` over the smaller power of two `2^k`. -/
def Exact.numOver (r : Exact) (k : Int) : Int := r.num * ((2 ^ (r.exp - k).toNat : Nat) : Int)

/-- The exact sum, over the smaller of the two exponents. -/
def Exact.add (r q : Exact) : Exact :=
  let k := min r.exp q.exp
  ⟨r.numOver k + q.numOver k, k⟩

/-- The exact difference. -/
def Exact.sub (r q : Exact) : Exact := r.add q.neg

/-- The exact product. -/
def Exact.mul (r q : Exact) : Exact := ⟨r.num * q.num, r.exp + q.exp⟩

/-- `r * 2^k`. -/
def Exact.scale (r : Exact) (k : Int) : Exact := ⟨r.num, r.exp + k⟩

/-- R9: `floor(r)`, the greatest integer not above `r`. -/
def Exact.floor (r : Exact) : Int :=
  if 0 ≤ r.exp then r.num * ((2 ^ r.exp.toNat : Nat) : Int) else r.num / ((2 ^ (-r.exp).toNat : Nat) : Int)

/-- Whether `r < 0`. -/
def Exact.isNeg (r : Exact) : Bool := decide (r.num < 0)

/-- Whether `r = 0`. -/
def Exact.isZero (r : Exact) : Bool := decide (r.num = 0)

/-- R101: for `y > 0` the pair `(m, e)` with `y = m * 2^e` and `0.5 <= m < 1`. -/
def Exact.frexp (y : Exact) : Exact × Int :=
  let len : Int := (Nat.log2 y.num.natAbs : Int) + 1
  (⟨y.num, -len⟩, len + y.exp)

end Sys2Proof.Machine
end

