-- ==== Sys2Proof/Machine/Operands.lean ====
section
/-!
DEFINITION. Operand forms: the fields of a packed byte (R60, R67) and of a native pattern (R64, R68), the value of a
native pattern (R65), the native pattern of an exact value (R66).
-/
namespace Sys2Proof.Machine

/-- R67: `s = p[7]`. -/
def signOf (p : Byte) : Bool := p.getLsbD 7

/-- R67: `b = p[6:3]`, unsigned. -/
def expOf (p : Byte) : Nat := (p.extractLsb' 3 4).toNat

/-- R67: `f = p[2:0]`, unsigned. -/
def mantOf (p : Byte) : Nat := (p.extractLsb' 0 3).toNat

/-- R60: `{s, b[3:0], f[2:0]}`. -/
def packByte (s : Bool) (b f : Nat) : Byte := BitVec.ofBool s ++ BitVec.ofNat 4 b ++ BitVec.ofNat 3 f

/-- R64: `P`, the width of the fraction field. -/
def fracBits : NativeFmt → Nat
  | .binary32 => 23
  | .binary64 => 52

/-- R64: the exponent bias of a native format. -/
def nativeBias : NativeFmt → Int
  | .binary32 => 127
  | .binary64 => 1023

/-- R65: `Emax`, the exponent field of infinities and NaNs. -/
def nativeEmax : NativeFmt → Nat
  | .binary32 => 255
  | .binary64 => 2047

/-- R68: `sN = x[W-1]`. -/
def nativeSign : Native → Bool
  | .b32 w => w.getLsbD 31
  | .b64 w => w.getLsbD 63

/-- R68: `EN`, as R64 places it. -/
def nativeExp : Native → Nat
  | .b32 w => (w.extractLsb' 23 8).toNat
  | .b64 w => (w.extractLsb' 52 11).toNat

/-- R68: `FN`, as R64 places it. -/
def nativeFrac : Native → Nat
  | .b32 w => (w.extractLsb' 0 23).toNat
  | .b64 w => (w.extractLsb' 0 52).toNat

/-- R66: `{sN, EN, FN}` in the layout of R64. -/
def packNative (fmt : NativeFmt) (s : Bool) (e f : Nat) : Native :=
  match fmt with
  | .binary32 => .b32 (BitVec.ofBool s ++ BitVec.ofNat 8 e ++ BitVec.ofNat 23 f)
  | .binary64 => .b64 (BitVec.ofBool s ++ BitVec.ofNat 11 e ++ BitVec.ofNat 52 f)

/-- R9, R65: what a native pattern can stand for. -/
inductive Value where
  | nan
  | infinity (negative : Bool)
  | zero (negative : Bool)
  | finite (r : Exact)
  deriving DecidableEq, Repr

/-- `(-1)^s * r`. -/
def withSign (s : Bool) (r : Exact) : Exact := if s then r.neg else r

/-- R65: `val(w)`. A subnormal is `(FN / 2^P) * 2^(1 - bias)`, a normal number `(1 + FN / 2^P) * 2^(EN - bias)`. -/
def val (w : Native) : Value :=
  let s := nativeSign w
  let en := nativeExp w
  let fn := nativeFrac w
  let p := fracBits w.fmt
  if en = nativeEmax w.fmt ∧ fn = 0 then .infinity s
  else if en = nativeEmax w.fmt then .nan
  else if en = 0 ∧ fn = 0 then .zero s
  else if en = 0 then .finite (withSign s (Exact.scale ⟨fn, -(p : Int)⟩ (1 - nativeBias w.fmt)))
  else .finite (withSign s (Exact.scale ⟨2 ^ p + fn, -(p : Int)⟩ (en - nativeBias w.fmt)))

/-- R65: whether a pattern is a NaN, quiet or signalling. -/
def isNaN (w : Native) : Bool := decide (nativeExp w = nativeEmax w.fmt) && decide (nativeFrac w ≠ 0)

/-- R66: `bits_native(r)`, for `r` exactly representable as zero or a normal number of `fmt`: with
`(m, e) = frexp(abs(r))`, the fields are `r < 0`, `e - 1 + bias` and `(2m - 1) * 2^P`. -/
def bitsNative (fmt : NativeFmt) (r : Exact) : Native :=
  if r.isZero then Native.ofNat fmt 0
  else
    let me := r.abs.frexp
    let frac := (((me.1.mul (.ofInt 2)).sub (.ofInt 1)).scale (fracBits fmt)).floor
    packNative fmt r.isNeg (me.2 - 1 + nativeBias fmt).toNat frac.toNat

end Sys2Proof.Machine
end

