-- ==== Sys2Proof/Machine/State.lean ====
section
/-!
DEFINITION. The state: the block itself holds none (R20), so State is what stands on the ports of its units (R28, R29)
and the host's side of a run (R31, R73, R236), with the model's own draw counter and the build parameter. Plain data.
-/
namespace Sys2Proof.Machine

/-- The reasons a step could stop the machine: there are none. R200: no operation raises an exception; spec/93:
"No behaviour of the block is fault or stuck". Safe, since no step raises one. -/
inductive Fault where
  deriving DecidableEq, Repr

/-- The reasons the model gives a transaction no meaning. -/
inductive Refusal where
  /-- Raised by an arm of `exec` whose instruction has no meaning yet; no arm is such a one. Safe. -/
  | notModelled (mnemonic : String)
  /-- Raised by `step` when a port the operation reads carries no defined value (R203, R31, D16: "a model refuses
  them"). Safe: nothing is claimed of such a transaction. -/
  | unknownInput (device : Device) (port : PortName) (why : Unknown)
  deriving DecidableEq, Repr

/-- R28: the ports of `float8_encoder`. An output `none` is an output to which no rule gives a value. -/
structure EncoderPorts where
  x : Input Native
  p : Option Byte
  deriving DecidableEq, Repr

/-- R28: the ports of `float8_decoder`. -/
structure DecoderPorts where
  p : Input Byte
  y : Option Native
  deriving DecidableEq, Repr

/-- R28: the ports of `float8_adder`. -/
structure AdderPorts where
  a : Input Byte
  b : Input Byte
  s : Option Byte
  deriving DecidableEq, Repr

/-- R28: the ports of `float8_multiplier`. -/
structure MultiplierPorts where
  a : Input Byte
  b : Input Byte
  r : Option Byte
  deriving DecidableEq, Repr

/-- R29: the ports of the wrapper `float8_unit`. -/
structure WrapperPorts where
  op : Input OpBits
  a : Input Byte
  b : Input Byte
  x : Input Native
  r8 : Option Byte
  y : Option Native
  deriving DecidableEq, Repr

/-- Where the current transaction stands: on the wrapper (R29) or on the operation's own unit (R28). -/
inductive Via where
  | wrapper
  | ownUnit
  deriving DecidableEq, Repr

/-- R73, R236: the map from host temporaries to values, strictly rising by the temporary's number. -/
abbrev Temps := List (Nat × Result)

/-- What the model holds between transactions. -/
structure State where
  /-- `NATIVE_FMT` (R7), fixed when the block is built (R24); no step writes it (log 2) -/
  fmt : NativeFmt
  /-- where the current transaction stands -/
  via : Via
  /-- the ports of `float8_unit` (R29) -/
  wrapper : WrapperPorts
  /-- the ports of `float8_encoder` (R28) -/
  encoder : EncoderPorts
  /-- the ports of `float8_decoder` (R28) -/
  decoder : DecoderPorts
  /-- the ports of `float8_adder` (R28) -/
  adder : AdderPorts
  /-- the ports of `float8_multiplier` (R28) -/
  multiplier : MultiplierPorts
  /-- the host's temporaries (R73) -/
  temps : Temps
  /-- the host's transactions not yet presented, the next first (R236) -/
  program : List Line
  /-- the model's own count of the draws taken so far (R111, log 4) -/
  draws : Nat
  deriving DecidableEq, Repr

/-- An input port the host does not drive. -/
def undriven {α : Type} : Input α := .unknown .undriven

/-- A block built with `fmt`, before any transaction: nothing is presented (R230), no temporary is written
(spec/95 L3), no program is loaded (log 7, log 9). -/
def State.resetAt (fmt : NativeFmt) : State where
  fmt := fmt
  via := .wrapper
  wrapper := ⟨undriven, undriven, undriven, undriven, none, none⟩
  encoder := ⟨undriven, none⟩
  decoder := ⟨undriven, none⟩
  adder := ⟨undriven, undriven, none⟩
  multiplier := ⟨undriven, undriven, none⟩
  temps := []
  program := []
  draws := 0

/-- R230: there is nothing to reset; the block at the spec's default parameters (R7). -/
def State.reset : State := State.resetAt Config.nativeFmt

end Sys2Proof.Machine
end

