-- ==== Sys2Proof/Machine/Ops.lean ====
section
/-!
DEFINITION. The named operations over the state: the host's temporaries (R73), presenting a transaction (R30, R31),
decoding what is presented, driving an output (R28, R29), taking a draw (R111), sampling the output. There is no
exception to take and none to return from (R200, R206, R207).
-/
namespace Sys2Proof.Machine

/-- The value of temporary `t`, if a transaction has written it (R236). -/
def Temps.read : Temps → Nat → Option Result
  | [], _ => none
  | (u, v) :: rest, t => if u = t then some v else Temps.read rest t

/-- Writing temporary `t`, in its place by number: the last value written stays (R236). -/
def Temps.write : Temps → Nat → Result → Temps
  | [], t, v => [(t, v)]
  | (u, q) :: rest, t, v =>
    if t < u then (t, v) :: (u, q) :: rest
    else if t = u then (t, v) :: rest
    else (u, q) :: Temps.write rest t v

/-- The canonical form of the temporaries: numbers strictly rising. -/
def Temps.wf : Temps → Bool
  | [] => true
  | (t, _) :: rest => rest.all (fun c => decide (t < c.1)) && Temps.wf rest

/-- What a byte operand puts on its port (R73): a temporary passes the earlier output unchanged (R234). -/
def resolveByte (ts : Temps) : Src Byte → Input Byte
  | .lit v => .driven v
  | .undriven => .unknown .undriven
  | .changing => .unknown .changing
  | .temp t =>
    match ts.read t with
    | some (.byte v) => .driven v
    | some (.native _) => .unknown .wrongKind
    | none => .unknown .unwritten

/-- R28: a native pattern can stand on a `W`-bit port only if it has `W` bits. -/
def onNativePort (fmt : NativeFmt) (v : Native) : Input Native :=
  if v.fmt = fmt then .driven v else .unknown .wrongWidth

/-- What a native operand puts on `x` (R73, R234). -/
def resolveNative (fmt : NativeFmt) (ts : Temps) : Src Native → Input Native
  | .lit v => onNativePort fmt v
  | .undriven => .unknown .undriven
  | .changing => .unknown .changing
  | .temp t =>
    match ts.read t with
    | some (.native v) => onNativePort fmt v
    | some (.byte _) => .unknown .wrongKind
    | none => .unknown .unwritten

/-- R30, R31: the host puts a line's operands on the input ports of its device; no output is settled yet. -/
def State.present (s : State) : Line → State
  | .wrapper _ op a b x =>
    { s with
      via := .wrapper
      wrapper := ⟨op, resolveByte s.temps a, resolveByte s.temps b, resolveNative s.fmt s.temps x, none, none⟩ }
  | .encoder _ x => { s with via := .ownUnit, encoder := ⟨resolveNative s.fmt s.temps x, none⟩ }
  | .decoder _ p => { s with via := .ownUnit, decoder := ⟨resolveByte s.temps p, none⟩ }
  | .adder _ a b => { s with via := .ownUnit, adder := ⟨resolveByte s.temps a, resolveByte s.temps b, none⟩ }
  | .multiplier _ a b =>
    { s with via := .ownUnit, multiplier := ⟨resolveByte s.temps a, resolveByte s.temps b, none⟩ }

/-- The instruction that stands on a device's input ports: the wrapper's by its select (R70), a unit's own operation
with no select (R69). -/
def State.decodeAt (s : State) : Device → Except Reject Instr
  | .wrapper => decodePorts s.wrapper.op s.wrapper.a s.wrapper.b s.wrapper.x
  | .encoder => (s.encoder.x.read .x).map Instr.enc8
  | .decoder => (s.decoder.p.read .p).map Instr.dec8
  | .adder => (s.adder.a.read .a).bind fun va => (s.adder.b.read .b).map (Instr.add8 va)
  | .multiplier => (s.multiplier.a.read .a).bind fun va => (s.multiplier.b.read .b).map (Instr.mul8 va)

/-- R29: the wrapper drives `r8`; its inactive output `y` is given no value (D22, log 5). -/
def State.driveR8 (s : State) (v : Byte) : State :=
  { s with wrapper := { s.wrapper with r8 := some v, y := none } }

/-- R29: the wrapper drives `y`; its inactive output `r8` is given no value (D22, log 5). -/
def State.driveY (s : State) (v : Native) : State :=
  { s with wrapper := { s.wrapper with r8 := none, y := some v } }

/-- R28, R100: ENC8 drives `r8` on the wrapper, `p` on its own unit. -/
def State.driveEncoder (s : State) (v : Byte) : State :=
  match s.via with
  | .wrapper => s.driveR8 v
  | .ownUnit => { s with encoder := { s.encoder with p := some v } }

/-- R28, R130: DEC8 drives `y`, on the wrapper or on its own unit. -/
def State.driveDecoder (s : State) (v : Native) : State :=
  match s.via with
  | .wrapper => s.driveY v
  | .ownUnit => { s with decoder := { s.decoder with y := some v } }

/-- R28, R150: ADD8 drives `r8` on the wrapper, `s` on its own unit. -/
def State.driveAdder (s : State) (v : Byte) : State :=
  match s.via with
  | .wrapper => s.driveR8 v
  | .ownUnit => { s with adder := { s.adder with s := some v } }

/-- R28, R152: MUL8 drives `r8` on the wrapper, `r` on its own unit. -/
def State.driveMultiplier (s : State) (v : Byte) : State :=
  match s.via with
  | .wrapper => s.driveR8 v
  | .ownUnit => { s with multiplier := { s.multiplier with r := some v } }

/-- R111: the byte the next draw gives. -/
def State.nextDraw (s : State) : Byte := Config.nanDraw s.draws

/-- R111: a draw is fresh at every transaction that takes one. -/
def State.takeDraw (s : State) : State := { s with draws := s.draws + 1 }

/-- R30: the output port an operation's transaction drives. -/
def State.outputOf (s : State) (o : Op) : Option Result :=
  match s.via, o with
  | .wrapper, .enc8 => s.wrapper.r8.map .byte
  | .wrapper, .dec8 => s.wrapper.y.map .native
  | .wrapper, .add8 => s.wrapper.r8.map .byte
  | .wrapper, .mul8 => s.wrapper.r8.map .byte
  | .ownUnit, .enc8 => s.encoder.p.map .byte
  | .ownUnit, .dec8 => s.decoder.y.map .native
  | .ownUnit, .add8 => s.adder.s.map .byte
  | .ownUnit, .mul8 => s.multiplier.r.map .byte

/-- The host samples the output into the line's temporary (R73; sampling has no side effect, R43). -/
def State.sample (s : State) (o : Op) (t : Nat) : State :=
  match s.outputOf o with
  | some v => { s with temps := s.temps.write t v }
  | none => s

/-- The host goes on to its next transaction. -/
def State.advance (s : State) : State := { s with program := s.program.tail }

/-- A program is loaded from outside, by the host (R236, log 9). -/
def State.load (s : State) (ls : List Line) : State := { s with program := ls }

/-- What the host does after the instruction `i` of its line `l`: it samples the output into the line's temporary and
goes on (R73, R236). -/
def State.retire (s : State) (l : Line) (i : Instr) : State := (s.sample i.op l.dest).advance

/-- R236: the run has ended; no transaction is presented and nothing changes (log 8). -/
def State.ended (s : State) : State := s

/-- A refusal of a transaction whose operation reads a port that carries no defined value (R203). -/
def refuseInput (d : Device) (r : Reject) : Refusal := .unknownInput d r.port r.why

end Sys2Proof.Machine
end

