-- ==== Sys2Proof/Machine/Decoder.lean ====
section
/-!
DEFINITION. `float8_decoder`: DEC8 (R130 to R142).
-/
namespace Sys2Proof.Machine

/-- R133: `mantissa = 1 + f/8`. -/
def significand (f : Nat) : Exact := ⟨8 + f, -3⟩

/-- R134, R149: `decR(p)`, the exact value of a byte: 0 for 0x00, else `(-1)^s * (1 + f/8) * 2^(b - 7)`, the
exponent-zero bytes included (R135). -/
def decR (p : Byte) : Exact :=
  if p = 0x00#8 then .ofInt 0
  else withSign (signOf p) ((significand (mantOf p)).scale ((expOf p : Int) - 7))

/-- R134: `dec(p)`, the native pattern of that value. -/
def dec (fmt : NativeFmt) (p : Byte) : Native := bitsNative fmt (decR p)

/-- R130, R134: DEC8 drives `dec(a)`. -/
def execDec8 (a : Byte) (s : State) : Host.Outcome State Fault Refusal :=
  .next (s.driveDecoder (dec s.fmt a))

end Sys2Proof.Machine
end

