-- ==== Sys2Proof/Machine/Flags.lean ====
section
/-!
DEFINITION. The block has no flags (R23, R116, R140, R160). What other hardware would flag is here a RESULT (R201): the
six exclusive cases of the encoding, in the order R205 tests them, and the two fields it computes.
-/
namespace Sys2Proof.Machine

/-- R7: the value of `ENCODE_EXP_ADJUST`. -/
def adjustOf : ExpAdjust → Int
  | .normative => 0
  | .alternative => -1

/-- R104: `biasedExp = e + 7` with `(m, e) = frexp(magnitude)`, an unbounded integer. -/
def biasedExp (adj : ExpAdjust) (magnitude : Exact) : Int := magnitude.frexp.2 + 7 + adjustOf adj

/-- R107, R108: `mant = floor((2m - 1) * 8) mod 8`, truncated and never rounded. -/
def mantissaField (magnitude : Exact) : Nat :=
  let m := magnitude.frexp.1
  ((((m.mul (.ofInt 2)).sub (.ofInt 1)).mul (.ofInt 8)).floor % 8).toNat

/-- R205: the cases of ENC8. -/
inductive RangeCase where
  | nan
  | zero
  | infinity
  | underflow
  | overflow
  | normal
  deriving DecidableEq, Repr

/-- R205: which case a value falls under, tested in the rule's order; R105 and R106 for the two thresholds. -/
def rangeCase (adj : ExpAdjust) : Value → RangeCase
  | .nan => .nan
  | .zero _ => .zero
  | .infinity _ => .infinity
  | .finite r =>
    if r.isZero then .zero
    else if biasedExp adj r.abs ≤ 0 then .underflow
    else if 16 ≤ biasedExp adj r.abs then .overflow
    else .normal

/-- R103: `sign = (x < 0)`, 1 for -Inf too. -/
def Value.negative : Value → Bool
  | .nan => false
  | .zero _ => false
  | .infinity s => s
  | .finite r => r.isNeg

/-- R103: `magnitude = |x|`; only finite values have one. -/
def Value.magnitude : Value → Exact
  | .nan => .ofInt 0
  | .zero _ => .ofInt 0
  | .infinity _ => .ofInt 0
  | .finite r => r.abs

end Sys2Proof.Machine
end

