-- ==== Sys2Proof/Machine/Encoder.lean ====
section
/-!
DEFINITION. `float8_encoder`: ENC8 (R100 to R122).
-/
namespace Sys2Proof.Machine

/-- R106, R110: the saturation pattern `{sign, 4'd15, 3'd0}`. -/
def saturated (sign : Bool) : Byte := packByte sign 15 0

/-- R109 on a value: `d` is the draw, used for a NaN alone. -/
def encodeValue (adj : ExpAdjust) (v : Value) (d : Byte) : Byte :=
  match rangeCase adj v with
  | .nan => d
  | .zero => 0x00#8
  | .infinity => saturated v.negative
  | .underflow => 0x00#8
  | .overflow => saturated v.negative
  | .normal => packByte v.negative (biasedExp adj v.magnitude).toNat (mantissaField v.magnitude)

/-- R109: `enc(x, d)`. -/
def enc (adj : ExpAdjust) (x : Native) (d : Byte) : Byte := encodeValue adj (val x) d

/-- R149: `encR(r)`, ENC8 of an exact finite real; no draw is used, whatever byte stands for it. -/
def encR (adj : ExpAdjust) (r : Exact) : Byte := encodeValue adj (.finite r) 0x00#8

/-- R100, R109, R111: ENC8 drives `enc(x, d)` and takes a fresh draw for a NaN. -/
def execEnc8 (x : Native) (s : State) : Host.Outcome State Fault Refusal :=
  let v := enc Config.encodeExpAdjust x s.nextDraw
  .next ((if isNaN x then s.takeDraw else s).driveEncoder v)

end Sys2Proof.Machine
end

