-- ==== Sys2Proof/Machine/Arith.lean ====
section
/-!
DEFINITION. `float8_adder` and `float8_multiplier`: ADD8 and MUL8 (R149 to R161), each two decoders, an exact
operation (R151, R153) and an encoder.
-/
namespace Sys2Proof.Machine

/-- R150: `add8(a, b) = encR(decR(a) + decR(b))`. -/
def add8 (adj : ExpAdjust) (a b : Byte) : Byte := encR adj ((decR a).add (decR b))

/-- R152: `mul8(a, b) = encR(decR(a) * decR(b))`. -/
def mul8 (adj : ExpAdjust) (a b : Byte) : Byte := encR adj ((decR a).mul (decR b))

/-- R150: ADD8 drives `add8(a, b)`. -/
def execAdd8 (a b : Byte) (s : State) : Host.Outcome State Fault Refusal :=
  .next (s.driveAdder (add8 Config.encodeExpAdjust a b))

/-- R152: MUL8 drives `mul8(a, b)`. -/
def execMul8 (a b : Byte) (s : State) : Host.Outcome State Fault Refusal :=
  .next (s.driveMultiplier (mul8 Config.encodeExpAdjust a b))

end Sys2Proof.Machine
end

