-- ==== Sys2Proof/Machine/Dispatch.lean ====
section
/-!
DEFINITION. One arm per instruction of the opcode table.
-/
namespace Sys2Proof.Machine
open Sys2Proof

def exec (i : Instr) (s : State) : Host.Outcome State Fault Refusal :=
  match i with
  | .enc8 x => Sys2Proof.Machine.execEnc8 x s
  | .dec8 a => Sys2Proof.Machine.execDec8 a s
  | .add8 a b => Sys2Proof.Machine.execAdd8 a b s
  | .mul8 a b => Sys2Proof.Machine.execMul8 a b s

end Sys2Proof.Machine
end

