-- ==== Sys2Proof/Machine/Step.lean ====
section
/-!
DEFINITION. One step of a run (R236): the host presents its next transaction, the block performs the operation that
stands on the ports, the host samples the output. Three outcomes; a fault never occurs (R200).
-/
namespace Sys2Proof.Machine

/-- After a transaction the host retires its line (R73, R236). -/
def afterExec (l : Line) (i : Instr) : Host.Outcome State Fault Refusal → Host.Outcome State Fault Refusal
  | .next t => .next (t.retire l i)
  | .fault f => .fault f
  | .refused r => .refused r

/-- R236: one transaction of the program, or the end of the run. -/
def step (s : State) : Host.Outcome State Fault Refusal :=
  match s.program with
  | [] => .next s.ended
  | l :: _ =>
    match (s.present l).decodeAt l.device with
    | .error r => .refused (refuseInput l.device r)
    | .ok i => afterExec l i (exec i (s.present l))

/-- A word of the opcode table put where the step takes its next transaction from: at the head of the host's program
(log 9). -/
def State.withFetchWord (s : State) (nbits w : Nat) : State :=
  { s with program := tableLine s.fmt nbits w :: s.program.tail }

end Sys2Proof.Machine
end

