-- ==== Sys2Proof/Machine/Assembler.lean ====
section
/-!
DEFINITION. The text of a host program (R73): one transaction a line, `ENC8 t0, 0x3F800000 ; comment`, and so on.
-/
namespace Sys2Proof.Machine

/-- A token begun, if any, put before the tokens that follow. -/
def flushToken (acc : List Char) (rest : List (List Char)) : List (List Char) :=
  if acc.isEmpty then rest else acc :: rest

/-- The tokens of a line: words and commas; a comment runs from `;` to the end (R73). -/
def tokens : List Char → List Char → List (List Char)
  | acc, [] => flushToken acc []
  | acc, c :: cs =>
    if c = ';' then flushToken acc []
    else if c = ' ' then flushToken acc (tokens [] cs)
    else if c = ',' then flushToken acc ([','] :: tokens [] cs)
    else tokens (acc ++ [c]) cs

/-- The value of a digit in a base of at most 16. -/
def digit (base : Nat) (c : Char) : Option Nat :=
  let n := c.toNat
  let v := if 48 ≤ n ∧ n ≤ 57 then n - 48 else if 65 ≤ n ∧ n ≤ 70 then n - 55 else if 97 ≤ n ∧ n ≤ 102 then n - 87 else 16
  if v < base then some v else none

/-- A number written in digits, most significant first (R8). -/
def number (base : Nat) : Nat → List Char → Option Nat
  | n, [] => some n
  | n, c :: cs => (digit base c).bind fun v => number base (n * base + v) cs

/-- A hex literal `0x…` of exactly `k` digits (R8). -/
def hexLit (k : Nat) : List Char → Option Nat
  | '0' :: 'x' :: ds => if ds.length = k then number 16 0 ds else none
  | _ => none

/-- A temporary: `t` and its decimal number, as spec/95 writes them (log 14). -/
def tempName : List Char → Option Nat
  | 't' :: d :: ds => number 10 0 (d :: ds)
  | _ => none

/-- R73: `<byte>` is `0xHH` or a temporary. -/
def byteOperand (w : List Char) : Option (Src Byte) :=
  match tempName w with
  | some t => some (.temp t)
  | none => (hexLit 2 w).map fun n => .lit (BitVec.ofNat 8 n)

/-- R73: `<native>` is a `W`-bit hex pattern or a temporary. -/
def nativeOperand (fmt : NativeFmt) (w : List Char) : Option (Src Native) :=
  match tempName w with
  | some t => some (.temp t)
  | none => (hexLit (fmt.width / 4) w).map fun n => .lit (Native.ofNat fmt n)

/-- The wrapper transaction of a line, its select that of R70, fields the operation does not read 0 (spec/95 L3). -/
def wrapperLine (fmt : NativeFmt) (t : Nat) (o : Op) (a b : Src Byte) (x : Option (Src Native)) : Line :=
  .wrapper t (.driven o.bits) a b (x.getD (.lit (Native.ofNat fmt 0)))

/-- R73: the transaction the tokens of one line write; there are no pseudo-instructions. -/
def assembleTokens (fmt : NativeFmt) : List (List Char) → Option Line
  | [m, t, [','], x] =>
    if m = ['E', 'N', 'C', '8'] then
      (tempName t).bind fun d => (nativeOperand fmt x).map fun v => wrapperLine fmt d .enc8 (.lit 0) (.lit 0) (some v)
    else if m = ['D', 'E', 'C', '8'] then
      (tempName t).bind fun d => (byteOperand x).map fun v => wrapperLine fmt d .dec8 v (.lit 0) none
    else none
  | [m, t, [','], a, [','], b] =>
    if m = ['A', 'D', 'D', '8'] then
      (tempName t).bind fun d =>
        (byteOperand a).bind fun va => (byteOperand b).map fun vb => wrapperLine fmt d .add8 va vb none
    else if m = ['M', 'U', 'L', '8'] then
      (tempName t).bind fun d =>
        (byteOperand a).bind fun va => (byteOperand b).map fun vb => wrapperLine fmt d .mul8 va vb none
    else none
  | _ => none

/-- R73: the transaction one line of text writes. -/
def assembleLine (fmt : NativeFmt) (text : List Char) : Option Line := assembleTokens fmt (tokens [] text)

/-- R73, R236: a program is the list of its lines. -/
def assemble (fmt : NativeFmt) : List (List Char) → Option (List Line)
  | [] => some []
  | l :: ls => (assembleLine fmt l).bind fun x => (assemble fmt ls).map fun xs => x :: xs

end Sys2Proof.Machine
end

