-- ==== Sys2Proof/WellFormed.lean ====
section
/-!
DEFINITION. Which instructions, lines and programs are well formed: native patterns of the width the block is built
with (R28), temporaries written before they are read and of the kind their port takes (R73, spec/95 L3).
-/
namespace Sys2Proof

/-- R28: an instruction's native operand has the width `W` of the block's `x` port. -/
def Instr.wf (fmt : NativeFmt) : Instr → Bool
  | .enc8 x => x.fmt == fmt
  | .dec8 _ => true
  | .add8 _ _ => true
  | .mul8 _ _ => true

/-- R73: the kinds of temporaries. -/
inductive Kind where
  | byte
  | native
  deriving DecidableEq, Repr

/-- The kind of a value (R32, R73). -/
def Result.kind : Result → Kind
  | .byte _ => .byte
  | .native _ => .native

/-- The kinds of the temporaries written so far, the latest first. -/
abbrev Kinds := List (Nat × Kind)

/-- The kind of temporary `t`, if a line has written it. -/
def Kinds.read : Kinds → Nat → Option Kind
  | [], _ => none
  | (u, k) :: rest, t => if u = t then some k else Kinds.read rest t

/-- A byte operand that a program may put on a port its operation reads (R73). -/
def Src.byteWf (ks : Kinds) : Src Byte → Bool
  | .lit _ => true
  | .temp t => ks.read t == some .byte
  | .undriven => false
  | .changing => false

/-- A native operand that a program may put on `x` where ENC8 reads it (R73, R28). -/
def Src.nativeWf (fmt : NativeFmt) (ks : Kinds) : Src Native → Bool
  | .lit v => v.fmt == fmt
  | .temp t => ks.read t == some .native
  | .undriven => false
  | .changing => false

/-- The kind of output an operation drives (R70: DEC8 drives `y`, the others `r8`). -/
def Op.outKind : Op → Kind
  | .dec8 => .native
  | .enc8 => .byte
  | .add8 => .byte
  | .mul8 => .byte

/-- The operation a line performs, if its select is driven (R69, R70). -/
def Line.op : Line → Option Op
  | .wrapper _ (.driven o) _ _ _ => some (Op.ofBits o)
  | .wrapper _ (.unknown _) _ _ _ => none
  | .encoder .. => some .enc8
  | .decoder .. => some .dec8
  | .adder .. => some .add8
  | .multiplier .. => some .mul8

/-- Well-formed operands for `op`: only the ports the operation reads matter (R29). -/
def Op.operandsWf (fmt : NativeFmt) (ks : Kinds) (a b : Src Byte) (x : Src Native) : Op → Bool
  | .enc8 => x.nativeWf fmt ks
  | .dec8 => a.byteWf ks
  | .add8 => a.byteWf ks && b.byteWf ks
  | .mul8 => a.byteWf ks && b.byteWf ks

/-- A line is well formed after the lines that wrote the temporaries `ks` (R73). -/
def Line.wf (fmt : NativeFmt) (ks : Kinds) : Line → Bool
  | .wrapper _ (.driven o) a b x => (Op.ofBits o).operandsWf fmt ks a b x
  | .wrapper _ (.unknown _) _ _ _ => false
  | .encoder _ x => x.nativeWf fmt ks
  | .decoder _ p => p.byteWf ks
  | .adder _ a b => a.byteWf ks && b.byteWf ks
  | .multiplier _ a b => a.byteWf ks && b.byteWf ks

/-- The kinds after a line has run. -/
def Line.kindsAfter (ks : Kinds) (l : Line) : Kinds :=
  match l.op with
  | some o => (l.dest, o.outKind) :: ks
  | none => ks

/-- R73, R236: a program each of whose lines is well formed where it stands. -/
def programWf (fmt : NativeFmt) : Kinds → List Line → Bool
  | _, [] => true
  | ks, l :: rest => l.wf fmt ks && programWf fmt (l.kindsAfter ks) rest

end Sys2Proof
end

