-- ==== Sys2Proof/Safety.lean ====
section
/-!
DEFINITION. The terms claims use: the rational value of a native pattern, and what is safe to rely on of a state: outputs
that follow inputs (R20), native values of the width the block was built with (R28), temporaries in canonical form
(R236), and programs that run to their end (R236).
-/
namespace Sys2Proof.Machine

/-- The real value of a native pattern as a rational (R65): 0 for both zeros, none for NaN and infinities. -/
def ratOf (w : Native) : Option Rat :=
  match val w with
  | .nan => none
  | .infinity _ => none
  | .zero _ => some 0
  | .finite r => some r.toRat

/-- The real value of a byte as a rational (R149). -/
def ratOfByte (p : Byte) : Rat := (decR p).toRat

/-- The bytes ENC8 gives for input `x`: one byte, but any byte for a NaN (R109, R111). -/
def Encodes (x : Native) (v : Byte) : Prop := isNaN x = false → ∀ d, v = enc Config.encodeExpAdjust x d

/-- R20, R230 for `float8_encoder`: an output it drives is the rule's function of its current input. -/
def EncoderPorts.Follows (u : EncoderPorts) : Prop :=
  ∀ v, u.p = some v → ∃ x, u.x = .driven x ∧ Encodes x v

/-- R20, R230 for `float8_decoder`. -/
def DecoderPorts.Follows (fmt : NativeFmt) (u : DecoderPorts) : Prop :=
  ∀ v, u.y = some v → ∃ p, u.p = .driven p ∧ v = dec fmt p

/-- R20, R230 for `float8_adder`. -/
def AdderPorts.Follows (u : AdderPorts) : Prop :=
  ∀ v, u.s = some v → ∃ a b, u.a = .driven a ∧ u.b = .driven b ∧ v = add8 Config.encodeExpAdjust a b

/-- R20, R230 for `float8_multiplier`. -/
def MultiplierPorts.Follows (u : MultiplierPorts) : Prop :=
  ∀ v, u.r = some v → ∃ a b, u.a = .driven a ∧ u.b = .driven b ∧ v = mul8 Config.encodeExpAdjust a b

/-- R20, R29 for the wrapper's `r8`: driven by ENC8, ADD8 and MUL8 alone. -/
def WrapperPorts.R8Follows (u : WrapperPorts) : Prop :=
  ∀ v, u.r8 = some v →
    (u.op = .driven Op.enc8.bits ∧ ∃ x, u.x = .driven x ∧ Encodes x v) ∨
    (u.op = .driven Op.add8.bits ∧
      ∃ a b, u.a = .driven a ∧ u.b = .driven b ∧ v = add8 Config.encodeExpAdjust a b) ∨
    (u.op = .driven Op.mul8.bits ∧
      ∃ a b, u.a = .driven a ∧ u.b = .driven b ∧ v = mul8 Config.encodeExpAdjust a b)

/-- R20, R29 for the wrapper's `y`: driven by DEC8 alone. -/
def WrapperPorts.YFollows (fmt : NativeFmt) (u : WrapperPorts) : Prop :=
  ∀ v, u.y = some v → u.op = .driven Op.dec8.bits ∧ ∃ a, u.a = .driven a ∧ v = dec fmt a

/-- R20, R230: every output that carries a value carries the rule's function of the current inputs. -/
def State.OutputsFollow (s : State) : Prop :=
  s.encoder.Follows ∧ s.decoder.Follows s.fmt ∧ s.adder.Follows ∧ s.multiplier.Follows ∧
    s.wrapper.R8Follows ∧ s.wrapper.YFollows s.fmt

/-- A value of the width the block was built with (R28); a byte has one width. -/
def resultFits (fmt : NativeFmt) : Result → Prop
  | .byte _ => True
  | .native v => v.fmt = fmt

/-- R28: every native pattern on a port or in a temporary has the width `W` of `NATIVE_FMT`. -/
def State.NativesFit (s : State) : Prop :=
  (∀ v, s.wrapper.x = .driven v → v.fmt = s.fmt) ∧ (∀ v, s.encoder.x = .driven v → v.fmt = s.fmt) ∧
    (∀ v, s.wrapper.y = some v → v.fmt = s.fmt) ∧ (∀ v, s.decoder.y = some v → v.fmt = s.fmt) ∧
    ∀ t v, s.temps.read t = some v → resultFits s.fmt v

/-- The kinds of the temporaries written so far (R73). -/
def State.kinds (s : State) : Kinds := s.temps.map fun c => (c.1, c.2.kind)

/-- R236: the rest of the program is one whose lines read only temporaries written before, of the right kind (R73). -/
def State.Ready (s : State) : Prop :=
  programWf s.fmt s.kinds s.program = true ∧ ∀ t v, s.temps.read t = some v → resultFits s.fmt v

/-- The temporaries a line puts on a port (R73). -/
def srcReads {α : Type} : Src α → List Nat
  | .temp t => [t]
  | .lit _ => []
  | .undriven => []
  | .changing => []

/-- The temporaries a line names as operands. -/
def lineReads : Line → List Nat
  | .wrapper _ _ a b x => srcReads a ++ srcReads b ++ srcReads x
  | .encoder _ x => srcReads x
  | .decoder _ p => srcReads p
  | .adder _ a b => srcReads a ++ srcReads b
  | .multiplier _ a b => srcReads a ++ srcReads b

/-- R62: the exponent-zero bytes, 0x01..0x07 and 0x80..0x87. -/
def exponentZero (p : Byte) : Prop := expOf p = 0 ∧ p ≠ 0x00#8

end Sys2Proof.Machine
end

