-- ==== Sys2Proof/Certificates/Slice0/Obligations.lean ====
section
/-!
DEFINITION. The statements for the provers: the spec's numbered rules about the four operations, the ports, the host's
run, and the invariants every step keeps. `enc`, `dec`, `add8`, `mul8` are tied to `exec` by the first group.
-/
open Sys2Proof Sys2Proof.Machine

/-! ## Transactions and their frames -/

/-- R100, R109, R111, R130, R134, R150, R152, R200: each operation, in every state, completes and drives its rule's
function of its operands. The NaN clause is the model's form of R111's draw (log 4, DESIGN CHOICE): the byte is
`Config.nanDraw` at the count `draws`, which moves by one; R111 itself says only that some byte is driven. -/
def Obligations.EveryOperationCompletesWithItsRule : Prop :=
  (∀ s x, isNaN x = false → ∀ d, exec (.enc8 x) s = .next (s.driveEncoder (enc Config.encodeExpAdjust x d))) ∧
  (∀ s x, isNaN x = true →
    exec (.enc8 x) s = .next (({ s with draws := s.draws + 1 } : State).driveEncoder (Config.nanDraw s.draws))) ∧
  (∀ s a, exec (.dec8 a) s = .next (s.driveDecoder (dec s.fmt a))) ∧
  (∀ s a b, exec (.add8 a b) s = .next (s.driveAdder (add8 Config.encodeExpAdjust a b))) ∧
  (∀ s a b, exec (.mul8 a b) s = .next (s.driveMultiplier (mul8 Config.encodeExpAdjust a b)))

/-- R29, R70, R23, R24, R100, R130, R150, R152: on the wrapper ENC8, ADD8 and MUL8 put their byte on `r8` and DEC8 its
pattern on `y`, the inactive output has no value (log 5), and the operation changes nothing else: no input port, no port
of a unit, no temporary, no line of the program, not the format; `draws`, the model's own count (log 4), moves for a NaN alone. -/
def Obligations.WrapperTransactionFrame : Prop :=
  ∀ i s, s.via = .wrapper → ∃ t, exec i s = .next t ∧
    (i.op = .dec8 → t.wrapper.y.isSome ∧ t.wrapper.r8 = none) ∧
    (i.op ≠ .dec8 → t.wrapper.r8.isSome ∧ t.wrapper.y = none) ∧
    t.wrapper.op = s.wrapper.op ∧ t.wrapper.a = s.wrapper.a ∧ t.wrapper.b = s.wrapper.b ∧ t.wrapper.x = s.wrapper.x ∧
    t.encoder = s.encoder ∧ t.decoder = s.decoder ∧ t.adder = s.adder ∧ t.multiplier = s.multiplier ∧
    t.fmt = s.fmt ∧ t.via = s.via ∧ t.temps = s.temps ∧ t.program = s.program ∧
    t.draws = s.draws + (match i with
      | .enc8 x => if isNaN x then 1 else 0
      | _ => 0)

/-- R28, R69, R51, R100, R130, R150, R152: on its own unit an operation puts its result on that unit's one output and
changes nothing else: not the wrapper, no other unit, no input port, no temporary, no line, not the format; `draws`, the
model's own count (log 4), moves for a NaN alone. -/
def Obligations.OwnUnitTransactionFrame : Prop :=
  ∀ i s, s.via = .ownUnit → ∃ t, exec i s = .next t ∧
    t.wrapper = s.wrapper ∧ t.encoder.x = s.encoder.x ∧ t.decoder.p = s.decoder.p ∧
    t.adder.a = s.adder.a ∧ t.adder.b = s.adder.b ∧ t.multiplier.a = s.multiplier.a ∧ t.multiplier.b = s.multiplier.b ∧
    (i.op = .enc8 → t.encoder.p.isSome) ∧ (i.op ≠ .enc8 → t.encoder.p = s.encoder.p) ∧
    (i.op = .dec8 → t.decoder.y.isSome) ∧ (i.op ≠ .dec8 → t.decoder.y = s.decoder.y) ∧
    (i.op = .add8 → t.adder.s.isSome) ∧ (i.op ≠ .add8 → t.adder.s = s.adder.s) ∧
    (i.op = .mul8 → t.multiplier.r.isSome) ∧ (i.op ≠ .mul8 → t.multiplier.r = s.multiplier.r) ∧
    t.fmt = s.fmt ∧ t.via = s.via ∧ t.temps = s.temps ∧ t.program = s.program ∧
    t.draws = s.draws + (match i with
      | .enc8 x => if isNaN x then 1 else 0
      | _ => 0)

/-- R20, R43: what an operation drives is the function of its operands and the format alone: two states that agree on
nothing else give the same output, but for the NaN draw. -/
def Obligations.OutputDependsOnOperandsAlone : Prop :=
  ∀ i s s' t t', (∀ x, i = .enc8 x → isNaN x = false) → s.fmt = s'.fmt → exec i s = .next t → exec i s' = .next t' →
    t.outputOf i.op = t'.outputOf i.op

/-! ## ENC8 -/

/-- R113: the closed form of ENC8 on binary32, in every state. R113 writes its NaN arm as the draw `d`; that it is
`Config.nanDraw` at the count `draws`, which moves by one, is the model's form (log 4, DESIGN CHOICE). -/
def Obligations.Enc8Binary32ClosedForm : Prop :=
  ∀ (s : State) (w : BitVec 32),
    let sN := w.getLsbD 31
    let EN := (w.extractLsb' 23 8).toNat
    let FN := (w.extractLsb' 0 23).toNat
    exec (.enc8 (.b32 w)) s =
      if EN = 255 ∧ FN ≠ 0 then
        .next (({ s with draws := s.draws + 1 } : State).driveEncoder (Config.nanDraw s.draws))
      else .next (s.driveEncoder (
        if EN = 255 then BitVec.ofBool sN ++ 15#4 ++ 0#3
        else if EN ≤ 119 then 0x00#8
        else if 135 ≤ EN then BitVec.ofBool sN ++ 15#4 ++ 0#3
        else BitVec.ofBool sN ++ BitVec.ofNat 4 (EN - 119) ++ w.extractLsb' 20 3))

/-- R114: the closed form of ENC8 on binary64, in every state. R114 writes its NaN arm as the draw `d`; that it is
`Config.nanDraw` at the count `draws`, which moves by one, is the model's form (log 4, DESIGN CHOICE). -/
def Obligations.Enc8Binary64ClosedForm : Prop :=
  ∀ (s : State) (w : BitVec 64),
    let sN := w.getLsbD 63
    let EN := (w.extractLsb' 52 11).toNat
    let FN := (w.extractLsb' 0 52).toNat
    exec (.enc8 (.b64 w)) s =
      if EN = 2047 ∧ FN ≠ 0 then
        .next (({ s with draws := s.draws + 1 } : State).driveEncoder (Config.nanDraw s.draws))
      else .next (s.driveEncoder (
        if EN = 2047 then BitVec.ofBool sN ++ 15#4 ++ 0#3
        else if EN ≤ 1015 then 0x00#8
        else if 1031 ≤ EN then BitVec.ofBool sN ++ 15#4 ++ 0#3
        else BitVec.ofBool sN ++ BitVec.ofNat 4 (EN - 1015) ++ w.extractLsb' 49 3))

/-- R102, R112: both zeros and every subnormal give 0x00; R110: an infinity gives 0x78 or 0xF8 by its sign. That -0 takes
R102's zero path is what the spec marks "from general knowledge, not in source", and which patterns are zeros, subnormals
and infinities is R65's layout, which it marks so too (log 11). -/
def Obligations.Enc8ZerosSubnormalsInfinities : Prop :=
  ∀ s x, (nativeExp x = 0 → exec (.enc8 x) s = .next (s.driveEncoder 0x00#8)) ∧
    (nativeExp x = nativeEmax x.fmt → nativeFrac x = 0 →
      exec (.enc8 x) s = .next (s.driveEncoder (if nativeSign x then 0xF8#8 else 0x78#8)))

/-- R111 with log 4: ENC8 of any NaN, quiet or signalling, of either sign and format, drives a fresh draw. That a draw is
the next of a sequence read by the count `draws`, which it uses up, is the model's form (log 4, DESIGN CHOICE); of the
byte itself nothing is said. -/
def Obligations.Enc8NaNTakesAFreshDraw : Prop :=
  ∀ s x, nativeExp x = nativeEmax x.fmt → nativeFrac x ≠ 0 →
    ∃ t, exec (.enc8 x) s = .next t ∧ t.outputOf .enc8 = some (.byte (Config.nanDraw s.draws)) ∧
      t.draws = s.draws + 1

/-- R101: `frexp` of a positive value is the unique pair `(m, e)` with `y = m * 2^e` and `0.5 <= m < 1`; that is,
`e = floor(log2(y)) + 1` and `m = y / 2^e`. -/
def Obligations.FrexpIsTheUniquePair : Prop :=
  ∀ y : Exact, 0 < y.num →
    y.toRat = y.frexp.1.toRat * (2 : Rat) ^ y.frexp.2 ∧ 1 / 2 ≤ y.frexp.1.toRat ∧ y.frexp.1.toRat < 1 ∧
    (∀ (m : Rat) (e : Int), y.toRat = m * (2 : Rat) ^ e → 1 / 2 ≤ m → m < 1 → m = y.frexp.1.toRat ∧ e = y.frexp.2) ∧
    (2 : Rat) ^ (y.frexp.2 - 1) ≤ y.toRat ∧ y.toRat < (2 : Rat) ^ y.frexp.2 ∧
    y.frexp.1.toRat = y.toRat / (2 : Rat) ^ y.frexp.2

/-- R107, R115: `floor((2m - 1) * 8)` is in 0..7, so the truncation to 3 bits removes nothing, and the mantissa field is
that floor. -/
def Obligations.MantissaFieldIsTheExactFloor : Prop :=
  ∀ y : Exact, 0 < y.num →
    ((mantissaField y : Nat) : Int) = ⌊(y.frexp.1.toRat * 2 - 1) * 8⌋ ∧ mantissaField y < 8

/-- R105: a nonzero magnitude has `biasedExp <= 0` exactly when `e <= -7`, that is when it is below `2^-7`, and ENC8 then
gives 0x00 whatever the sign. -/
def Obligations.UnderflowFlushesToZero : Prop :=
  (∀ r : Exact, r.num ≠ 0 →
    (biasedExp Config.encodeExpAdjust r.abs ≤ 0 ↔ r.abs.frexp.2 ≤ -7) ∧
    (biasedExp Config.encodeExpAdjust r.abs ≤ 0 ↔ |r.toRat| < (2 : Rat) ^ (-7 : Int))) ∧
  ∀ s x q, ratOf x = some q → |q| < (2 : Rat) ^ (-7 : Int) → exec (.enc8 x) s = .next (s.driveEncoder 0x00#8)

/-- R106: a nonzero magnitude has `biasedExp >= 16` exactly when `e >= 9`, that is when it is at least `2^8`; ENC8 then
gives 0x78 or 0xF8 by the sign, which decode to +256 and -256, not to the largest value 480. -/
def Obligations.OverflowSaturates : Prop :=
  (∀ r : Exact, r.num ≠ 0 →
    (16 ≤ biasedExp Config.encodeExpAdjust r.abs ↔ 9 ≤ r.abs.frexp.2) ∧
    (16 ≤ biasedExp Config.encodeExpAdjust r.abs ↔ (2 : Rat) ^ (8 : Int) ≤ |r.toRat|)) ∧
  (∀ s x q, ratOf x = some q → (2 : Rat) ^ (8 : Int) ≤ |q| →
    exec (.enc8 x) s = .next (s.driveEncoder (if q < 0 then 0xF8#8 else 0x78#8))) ∧
  ∀ fmt, ratOf (dec fmt 0x78#8) = some 256 ∧ ratOf (dec fmt 0xF8#8) = some (-256) ∧
    ratOf (dec fmt 0x7F#8) = some 480

/-- R117: ENC8 by the magnitude of its input, `E = floor(log2 |x|)`, and the band of every field pair. R117 gives a NaN
"draw (rule R111)"; that it is `Config.nanDraw` at the count `draws`, which moves by one, is the model's form (log 4,
DESIGN CHOICE). -/
def Obligations.Enc8ByMagnitude : Prop :=
  (∀ s x q (E : Int), ratOf x = some q → (2 : Rat) ^ E ≤ |q| → |q| < (2 : Rat) ^ (E + 1) →
    exec (.enc8 x) s = .next (s.driveEncoder (
      if |q| < (2 : Rat) ^ (-7 : Int) then 0x00#8
      else if |q| < (2 : Rat) ^ (8 : Int) then
        packByte (decide (q < 0)) (E + 8).toNat (⌊|q| * (2 : Rat) ^ (3 - E)⌋ - 8).toNat
      else packByte (decide (q < 0)) 15 0))) ∧
  (∀ s x, ratOf x = some 0 → exec (.enc8 x) s = .next (s.driveEncoder 0x00#8)) ∧
  (∀ s x neg, val x = .infinity neg → exec (.enc8 x) s = .next (s.driveEncoder (packByte neg 15 0))) ∧
  (∀ s x, val x = .nan →
    exec (.enc8 x) s = .next (({ s with draws := s.draws + 1 } : State).driveEncoder (Config.nanDraw s.draws))) ∧
  (∀ s x q (b f : Nat), ratOf x = some q → 1 ≤ b → b ≤ 15 → f < 8 →
    (8 + f : Rat) * (2 : Rat) ^ ((b : Int) - 11) ≤ |q| → |q| < (9 + f : Rat) * (2 : Rat) ^ ((b : Int) - 11) →
    exec (.enc8 x) s = .next (s.driveEncoder (packByte (decide (q < 0)) b f)))

/-- R118: DEC8 of ENC8 returns twice the input truncated to four significant bits for `2^-7 <= |x| < 2^8`, 0 below and
±256 above. -/
def Obligations.RoundTripDoublesTheTruncation : Prop :=
  ∀ fmt x q d, ratOf x = some q →
    (|q| < (2 : Rat) ^ (-7 : Int) → ratOf (dec fmt (enc Config.encodeExpAdjust x d)) = some 0) ∧
    (∀ E : Int, (2 : Rat) ^ (-7 : Int) ≤ |q| → |q| < (2 : Rat) ^ (8 : Int) →
      (2 : Rat) ^ E ≤ |q| → |q| < (2 : Rat) ^ (E + 1) →
      ratOf (dec fmt (enc Config.encodeExpAdjust x d)) =
        some ((if q < 0 then -1 else 1) * 2 * (⌊|q| * (2 : Rat) ^ (3 - E)⌋ : Rat) * (2 : Rat) ^ (E - 3))) ∧
    ((2 : Rat) ^ (8 : Int) ≤ |q| →
      ratOf (dec fmt (enc Config.encodeExpAdjust x d)) = some (if q < 0 then -256 else 256))

/-- R119: inputs in [240, 256) encode to 0x7F, which decodes to 480, and from 256 on to 0x78, which decodes to 256,
mirrored for negative ones; but for that step, of two inputs of one sign the larger magnitude never gives a smaller
`{b, f}`. -/
def Obligations.Enc8StepsDownOnlyAt256 : Prop :=
  (ratOfByte 0x7F#8 = 480 ∧ ratOfByte 0x78#8 = 256 ∧ ratOfByte 0xFF#8 = -480 ∧ ratOfByte 0xF8#8 = -256) ∧
  (∀ x q d, ratOf x = some q → 240 ≤ |q| → |q| < 256 →
    enc Config.encodeExpAdjust x d = if q < 0 then 0xFF#8 else 0x7F#8) ∧
  (∀ x q d, ratOf x = some q → 256 ≤ |q| →
    enc Config.encodeExpAdjust x d = if q < 0 then 0xF8#8 else 0x78#8) ∧
  (∀ x x' q q' d, ratOf x = some q → ratOf x' = some q' → (q < 0 ↔ q' < 0) → |q| ≤ |q'| →
    (|q'| < 256 ∨ 256 ≤ |q|) →
    (enc Config.encodeExpAdjust x d).toNat % 128 ≤ (enc Config.encodeExpAdjust x' d).toNat % 128)

/-- R120: a result other than 0x00 has the sign of the input in bit 7, a magnitude below `2^-7` loses its sign, and ENC8
never gives 0x80; so DEC8 of ENC8 keeps a positive or negative sign exactly from magnitude `2^-7` on. -/
def Obligations.Enc8KeepsTheSignOfANonzeroResult : Prop :=
  (∀ x q d, ratOf x = some q → enc Config.encodeExpAdjust x d ≠ 0x00#8 →
    (enc Config.encodeExpAdjust x d).getLsbD 7 = decide (q < 0)) ∧
  (∀ x neg d, val x = .infinity neg → (enc Config.encodeExpAdjust x d).getLsbD 7 = neg) ∧
  (∀ x d, isNaN x = false → enc Config.encodeExpAdjust x d ≠ 0x80#8) ∧
  (∀ x q d, ratOf x = some q → |q| < (2 : Rat) ^ (-7 : Int) → enc Config.encodeExpAdjust x d = 0x00#8) ∧
  (∀ x q d, ratOf x = some q →
    (0 < ratOfByte (enc Config.encodeExpAdjust x d) ↔ (2 : Rat) ^ (-7 : Int) ≤ q) ∧
    (ratOfByte (enc Config.encodeExpAdjust x d) < 0 ↔ q ≤ -(2 : Rat) ^ (-7 : Int)))

/-- R121: but for a NaN draw ENC8 never gives an exponent-zero byte; the zero byte comes from both zeros and from
underflow, and every normal byte from an input of its R117 band, in either format. -/
def Obligations.Enc8OutputSet : Prop :=
  (∀ x d, isNaN x = false → ¬ exponentZero (enc Config.encodeExpAdjust x d)) ∧
  (∀ x d, isNaN x = false → (enc Config.encodeExpAdjust x d = 0x00#8 ↔
    ∃ q, ratOf x = some q ∧ |q| < (2 : Rat) ^ (-7 : Int))) ∧
  ∀ (fmt : NativeFmt) (p : Byte), 1 ≤ expOf p →
    ∃ (x : Native) (q : Rat), x.fmt = fmt ∧ ratOf x = some q ∧ (q < 0 ↔ signOf p = true) ∧
      (8 + mantOf p : Rat) * (2 : Rat) ^ ((expOf p : Int) - 11) ≤ |q| ∧
      |q| < (9 + mantOf p : Rat) * (2 : Rat) ^ ((expOf p : Int) - 11) ∧
      ∀ d, enc Config.encodeExpAdjust x d = p

/-- R115, R7: ENC8 depends on the real value of its input alone: two patterns of one value, of whichever format, give
one byte. -/
def Obligations.Enc8DependsOnTheValueAlone : Prop :=
  ∀ x x' q d d', ratOf x = some q → ratOf x' = some q →
    enc Config.encodeExpAdjust x d = enc Config.encodeExpAdjust x' d'

/-- R201, R205: the six cases are exclusive and fixed by the input: NaN, zero, infinity, and the three ranges of a
nonzero finite magnitude. -/
def Obligations.RangeCasesFollowTheMagnitude : Prop :=
  ∀ x : Native,
    (rangeCase Config.encodeExpAdjust (val x) = .nan ↔ isNaN x = true) ∧
    (rangeCase Config.encodeExpAdjust (val x) = .zero ↔ ratOf x = some 0) ∧
    (rangeCase Config.encodeExpAdjust (val x) = .infinity ↔
      nativeExp x = nativeEmax x.fmt ∧ nativeFrac x = 0) ∧
    (rangeCase Config.encodeExpAdjust (val x) = .underflow ↔
      ∃ q, ratOf x = some q ∧ q ≠ 0 ∧ |q| < (2 : Rat) ^ (-7 : Int)) ∧
    (rangeCase Config.encodeExpAdjust (val x) = .normal ↔
      ∃ q, ratOf x = some q ∧ (2 : Rat) ^ (-7 : Int) ≤ |q| ∧ |q| < (2 : Rat) ^ (8 : Int)) ∧
    (rangeCase Config.encodeExpAdjust (val x) = .overflow ↔
      ∃ q, ratOf x = some q ∧ (2 : Rat) ^ (8 : Int) ≤ |q|)

/-! ## The native format -/

/-- R65: the value of a native pattern of either format by its fields. -/
def Obligations.NativePatternValues : Prop :=
  ∀ w : Native,
    let sg : Rat := if nativeSign w then -1 else 1
    let FN : Rat := nativeFrac w
    let P := fracBits w.fmt
    (nativeExp w = nativeEmax w.fmt → nativeFrac w = 0 → val w = .infinity (nativeSign w)) ∧
    (nativeExp w = nativeEmax w.fmt → nativeFrac w ≠ 0 → val w = .nan) ∧
    (nativeExp w = 0 → nativeFrac w = 0 → val w = .zero (nativeSign w)) ∧
    (nativeExp w = 0 → nativeFrac w ≠ 0 →
      ratOf w = some (sg * (FN / (2 : Rat) ^ P) * (2 : Rat) ^ (1 - nativeBias w.fmt))) ∧
    (nativeExp w ≠ 0 → nativeExp w ≠ nativeEmax w.fmt →
      ratOf w = some (sg * (1 + FN / (2 : Rat) ^ P) * (2 : Rat) ^ ((nativeExp w : Int) - nativeBias w.fmt)))

/-- R66: `bits_native` of 0 is the all-zero pattern, and of the value of a normal pattern that pattern. -/
def Obligations.BitsNativeInvertsTheValue : Prop :=
  (∀ fmt (r : Exact), r.num = 0 → bitsNative fmt r = Native.ofNat fmt 0) ∧
  ∀ (w : Native) (r : Exact), nativeExp w ≠ 0 → nativeExp w ≠ nativeEmax w.fmt → ratOf w = some r.toRat →
    bitsNative w.fmt r = w

/-- R60, R67: the byte is `s*128 + b*8 + f`, and packing inverts the extraction of the three fields. -/
def Obligations.PackedByteFields : Prop :=
  (∀ p : Byte, packByte (signOf p) (expOf p) (mantOf p) = p ∧ expOf p < 16 ∧ mantOf p < 8 ∧
    p.toNat = (if signOf p then 128 else 0) + expOf p * 8 + mantOf p) ∧
  ∀ (s : Bool) (b f : Nat), b < 16 → f < 8 →
    (packByte s b f).toNat = (if s then 128 else 0) + b * 8 + f ∧
    signOf (packByte s b f) = s ∧ expOf (packByte s b f) = b ∧ mantOf (packByte s b f) = f

/-! ## DEC8 -/

/-- R137: the closed form of DEC8 in binary32 and in binary64, in every state; its value is exact, zero or a normal number,
and the same in both formats. -/
def Obligations.Dec8ClosedForm : Prop :=
  ∀ (s : State) (p : Byte),
    (s.fmt = .binary32 → exec (.dec8 p) s = .next (s.driveDecoder (.b32 (
      if p = 0x00#8 then 0#32
      else p.extractLsb' 7 1 ++ BitVec.ofNat 8 (expOf p + 120) ++ p.extractLsb' 0 3 ++ 0#20)))) ∧
    (s.fmt = .binary64 → exec (.dec8 p) s = .next (s.driveDecoder (.b64 (
      if p = 0x00#8 then 0#64
      else p.extractLsb' 7 1 ++ BitVec.ofNat 11 (expOf p + 1016) ++ p.extractLsb' 0 3 ++ 0#49)))) ∧
    ratOf (dec .binary32 p) = some (ratOfByte p) ∧ ratOf (dec .binary64 p) = some (ratOfByte p) ∧
    ∀ fmt, dec fmt p = Native.ofNat fmt 0 ∨ (nativeExp (dec fmt p) ≠ 0 ∧ nativeExp (dec fmt p) ≠ nativeEmax fmt)

/-- R131, R134, R135: DEC8 in every state drives +0 for 0x00, and otherwise a pattern of the block's format of value
`(-1)^s * (1 + f/8) * 2^(b - 7) = (-1)^s * (8 + f) * 2^(b - 10)`, for the exponent-zero bytes too. -/
def Obligations.Dec8Value : Prop :=
  (∀ s, exec (.dec8 0x00#8) s = .next (s.driveDecoder (Native.ofNat s.fmt 0))) ∧
  ∀ s p, p ≠ 0x00#8 → ∃ y : Native, exec (.dec8 p) s = .next (s.driveDecoder y) ∧ y.fmt = s.fmt ∧
    ratOf y = some ((if signOf p then -1 else 1) * (1 + mantOf p / 8 : Rat) * (2 : Rat) ^ ((expOf p : Int) - 7)) ∧
    ratOf y = some ((if signOf p then -1 else 1) * (8 + mantOf p : Rat) * (2 : Rat) ^ ((expOf p : Int) - 10))

/-- R138: the result of DEC8 is never NaN, infinite, -0 or subnormal; but for 0x00 its magnitude is in [2^-7, 480], with
the smallest at 0x80 alone and the largest at 0x7F and 0xFF alone. -/
def Obligations.Dec8Range : Prop :=
  ∀ fmt p,
    nativeExp (dec fmt p) ≠ nativeEmax fmt ∧
    (nativeExp (dec fmt p) = 0 → dec fmt p = Native.ofNat fmt 0) ∧
    (p = 0x00#8 ↔ dec fmt p = Native.ofNat fmt 0) ∧
    (p ≠ 0x00#8 → (2 : Rat) ^ (-7 : Int) ≤ |ratOfByte p| ∧ |ratOfByte p| ≤ 480 ∧
      (|ratOfByte p| = (2 : Rat) ^ (-7 : Int) ↔ p = 0x80#8) ∧
      (|ratOfByte p| = 480 ↔ p = 0x7F#8 ∨ p = 0xFF#8))

/-- R139: DEC8 is injective, by pattern and by value. -/
def Obligations.Dec8Injective : Prop :=
  (∀ fmt p q, dec fmt p = dec fmt q → p = q) ∧ ∀ p q, ratOfByte p = ratOfByte q → p = q

/-- R141: ENC8 after DEC8 raises the exponent field by one, saturates from 15, and keeps 0x00. -/
def Obligations.EncodeAfterDecode : Prop :=
  ∀ (fmt : NativeFmt) (p d : Byte),
    enc Config.encodeExpAdjust (dec fmt p) d =
      if p = 0x00#8 then 0x00#8
      else if expOf p = 15 then packByte (signOf p) 15 0
      else packByte (signOf p) (expOf p + 1) (mantOf p)

/-! ## ADD8 and MUL8 -/

/-- R149, R150, R151: ADD8 in every state drives the encoding of the exact sum of the decoded operands. The sum is a
multiple of 2^-10 below 2^20 of them, a pattern of either format carries it exactly, and ENC8 of that pattern is the
result for every draw. -/
def Obligations.Add8EncodesTheExactSum : Prop :=
  ∀ (s : State) (a b : Byte), ∃ v : Byte, exec (.add8 a b) s = .next (s.driveAdder v) ∧
    (∃ N : Int, ratOfByte a + ratOfByte b = N * (2 : Rat) ^ (-10 : Int) ∧ |N| < 2 ^ 20) ∧
    ∀ fmt, ∃ x : Native, x.fmt = fmt ∧ ratOf x = some (ratOfByte a + ratOfByte b) ∧
      ∀ d, v = enc Config.encodeExpAdjust x d

/-- R149, R152, R153: MUL8 in every state drives the encoding of the exact product. A nonzero product has its magnitude
in [2^-14, 230400], a pattern of either format carries it exactly, and ENC8 of that pattern is the result for every
draw. -/
def Obligations.Mul8EncodesTheExactProduct : Prop :=
  ∀ (s : State) (a b : Byte), ∃ v : Byte, exec (.mul8 a b) s = .next (s.driveMultiplier v) ∧
    (ratOfByte a * ratOfByte b = 0 ∨
      (2 : Rat) ^ (-14 : Int) ≤ |ratOfByte a * ratOfByte b| ∧ |ratOfByte a * ratOfByte b| ≤ 230400) ∧
    ∀ fmt, ∃ x : Native, x.fmt = fmt ∧ ratOf x = some (ratOfByte a * ratOfByte b) ∧
      ∀ d, v = enc Config.encodeExpAdjust x d

/-- R149: `encR` is ENC8 of the native pattern of its argument, for every draw, on the sums and products the units
form, in either format. -/
def Obligations.EncRIsEnc8OfTheNativePattern : Prop :=
  ∀ (fmt : NativeFmt) (a b d : Byte),
    enc Config.encodeExpAdjust (bitsNative fmt ((decR a).add (decR b))) d =
      encR Config.encodeExpAdjust ((decR a).add (decR b)) ∧
    enc Config.encodeExpAdjust (bitsNative fmt ((decR a).mul (decR b))) d =
      encR Config.encodeExpAdjust ((decR a).mul (decR b))

/-- R154: when ADD8 and MUL8 give 0x00; every byte but 0x00 and 0x80 has the negation `p XOR 0x80`, no byte is that of
0x80, and every nonzero byte has a partner with sum 0x00. -/
def Obligations.ZeroResults : Prop :=
  (∀ a b, add8 Config.encodeExpAdjust a b = 0x00#8 ↔ |ratOfByte a + ratOfByte b| < (2 : Rat) ^ (-7 : Int)) ∧
  (∀ a b, mul8 Config.encodeExpAdjust a b = 0x00#8 ↔
    a = 0x00#8 ∨ b = 0x00#8 ∨ |ratOfByte a * ratOfByte b| < (2 : Rat) ^ (-7 : Int)) ∧
  (∀ p : Byte, p ≠ 0x00#8 → p ≠ 0x80#8 → ratOfByte (p ^^^ 0x80#8) = -ratOfByte p) ∧
  (∀ p : Byte, ratOfByte p ≠ -ratOfByte 0x80#8) ∧
  (∀ p : Byte, 1 ≤ p.toNat → p.toNat ≤ 7 → add8 Config.encodeExpAdjust 0x80#8 p = 0x00#8) ∧
  ∀ p : Byte, p ≠ 0x00#8 → ∃ q : Byte, add8 Config.encodeExpAdjust p q = 0x00#8

/-- R155 with R62: an exact result of magnitude at least 2^8 gives the saturation pattern with its sign; that byte comes
otherwise only from the band [128, 144), whose normal encoding it also is. -/
def Obligations.ArithmeticSaturates : Prop :=
  (∀ a b, (2 : Rat) ^ (8 : Int) ≤ |ratOfByte a + ratOfByte b| →
    add8 Config.encodeExpAdjust a b = packByte (decide (ratOfByte a + ratOfByte b < 0)) 15 0) ∧
  (∀ a b, (2 : Rat) ^ (8 : Int) ≤ |ratOfByte a * ratOfByte b| →
    mul8 Config.encodeExpAdjust a b = packByte (decide (ratOfByte a * ratOfByte b < 0)) 15 0) ∧
  (∀ a b sg, add8 Config.encodeExpAdjust a b = packByte sg 15 0 →
    128 ≤ |ratOfByte a + ratOfByte b| ∧
      (|ratOfByte a + ratOfByte b| < 144 ∨ (2 : Rat) ^ (8 : Int) ≤ |ratOfByte a + ratOfByte b|)) ∧
  ∀ a b sg, mul8 Config.encodeExpAdjust a b = packByte sg 15 0 →
    128 ≤ |ratOfByte a * ratOfByte b| ∧
      (|ratOfByte a * ratOfByte b| < 144 ∨ (2 : Rat) ^ (8 : Int) ≤ |ratOfByte a * ratOfByte b|)

/-- R156: a nonzero result of ADD8 has the sign of the exact sum, of MUL8 the sign `sa XOR sb`. -/
def Obligations.ArithmeticSigns : Prop :=
  (∀ a b, add8 Config.encodeExpAdjust a b ≠ 0x00#8 →
    (signOf (add8 Config.encodeExpAdjust a b) = true ↔ ratOfByte a + ratOfByte b < 0)) ∧
  ∀ a b, mul8 Config.encodeExpAdjust a b ≠ 0x00#8 →
    signOf (mul8 Config.encodeExpAdjust a b) = (signOf a != signOf b)

/-- R157: ADD8 and MUL8 never give an exponent-zero byte, and take no draw: in every state they leave the count of draws
alone. -/
def Obligations.ArithmeticOutputSet : Prop :=
  (∀ a b, ¬ exponentZero (add8 Config.encodeExpAdjust a b)) ∧
  (∀ a b, ¬ exponentZero (mul8 Config.encodeExpAdjust a b)) ∧
  ∀ s a b, (∃ t, exec (.add8 a b) s = .next t ∧ t.draws = s.draws) ∧ ∃ t, exec (.mul8 a b) s = .next t ∧ t.draws = s.draws

/-- R158: both operations commute; ADD8 is not associative; 0x00 and 0x38 are no identities but act as ENC8 after DEC8;
doubling raises the exponent field by two or saturates; 0x30 is the multiplicative identity on normal bytes and gives
0x00 on the others. -/
def Obligations.ArithmeticLaws : Prop :=
  (∀ a b, add8 Config.encodeExpAdjust a b = add8 Config.encodeExpAdjust b a ∧
    mul8 Config.encodeExpAdjust a b = mul8 Config.encodeExpAdjust b a) ∧
  (add8 Config.encodeExpAdjust (add8 Config.encodeExpAdjust 0x38#8 0x38#8) 0x3A#8 = 0x52#8 ∧
    add8 Config.encodeExpAdjust 0x38#8 (add8 Config.encodeExpAdjust 0x38#8 0x3A#8) = 0x53#8) ∧
  (add8 Config.encodeExpAdjust 0x40#8 0x00#8 = 0x48#8 ∧ mul8 Config.encodeExpAdjust 0x4C#8 0x38#8 = 0x54#8) ∧
  (∀ fmt a d, add8 Config.encodeExpAdjust a 0x00#8 = enc Config.encodeExpAdjust (dec fmt a) d) ∧
  (∀ a, add8 Config.encodeExpAdjust a a =
    if a = 0x00#8 then 0x00#8
    else if expOf a + 2 ≤ 15 then packByte (signOf a) (expOf a + 2) (mantOf a)
    else packByte (signOf a) 15 0) ∧
  (∀ fmt a d, mul8 Config.encodeExpAdjust a 0x38#8 = enc Config.encodeExpAdjust (dec fmt a) d) ∧
  ∀ a, mul8 Config.encodeExpAdjust a 0x30#8 = (if 1 ≤ expOf a then a else 0x00#8) ∧
    mul8 Config.encodeExpAdjust 0x30#8 a = if 1 ≤ expOf a then a else 0x00#8

/-- R122, R142, R161: the spec's worked examples. -/
def Obligations.WorkedExamples : Prop :=
  (∀ d, enc Config.encodeExpAdjust (.b32 0x3F800000#32) d = 0x40#8) ∧
  (Exact.ofInt 1).frexp = (⟨1, -1⟩, 1) ∧ biasedExp Config.encodeExpAdjust (.ofInt 1) = 8 ∧ mantissaField (.ofInt 1) = 0 ∧
  dec .binary32 0x40#8 = .b32 0x40000000#32 ∧
  signOf 0xC5#8 = true ∧ expOf 0xC5#8 = 8 ∧ mantOf 0xC5#8 = 5 ∧ dec .binary32 0xC5#8 = .b32 0xC0500000#32 ∧
  (∀ d, enc Config.encodeExpAdjust (.b32 0x40000000#32) d = 0x48#8) ∧
  (∀ d, enc Config.encodeExpAdjust (.b32 0x40400000#32) d = 0x4C#8) ∧
  (∀ d, enc Config.encodeExpAdjust (.b32 0x40800000#32) d = 0x50#8) ∧
  add8 Config.encodeExpAdjust 0x48#8 0x4C#8 = 0x5A#8 ∧ dec .binary32 0x5A#8 = .b32 0x41A00000#32 ∧
  mul8 Config.encodeExpAdjust 0x48#8 0x50#8 = 0x68#8 ∧ dec .binary32 0x68#8 = .b32 0x42800000#32

/-! ## Encodings -/

/-- R72, R28: every well-formed instruction, with every operand value, decodes from its transaction word, in either
format. -/
def Obligations.DecodeInvertsEncode : Prop :=
  ∀ (fmt : NativeFmt) (i : Instr), i.wf fmt = true → decodeWord fmt (encode fmt i) = .ok i

/-- R71, R72, R70: every transaction word decodes, to a well-formed instruction of the operation its top two bits select
with the fields that operation reads; the other fields are ignored (R29). -/
def Obligations.EveryWordDecodes : Prop :=
  ∀ (fmt : NativeFmt) (o : OpBits) (a b : Byte) (x : Native), x.fmt = fmt →
    decodeWord fmt (packWord fmt o a b x.toNat) = .ok (
      if o = 0b00#2 then .enc8 x else if o = 0b01#2 then .dec8 a
      else if o = 0b10#2 then .add8 a b else .mul8 a b)

/-- R70, R72: transaction words written out from the encoding, one for each operation (spec/95, programs P1 and P2). -/
def Obligations.SampleWordsDecode : Prop :=
  decodeWord .binary32 0x0000040000000#50 = .ok (.enc8 (.b32 0x40000000#32)) ∧
  decodeWord .binary32 0x15A0000000000#50 = .ok (.dec8 0x5A#8) ∧
  decodeWord .binary32 0x2484C00000000#50 = .ok (.add8 0x48#8 0x4C#8) ∧
  decodeWord .binary32 0x3485000000000#50 = .ok (.mul8 0x48#8 0x50#8)

/-! ## The run -/

/-- R30, R236: when what a line puts on its device decodes to an instruction, the step is that instruction's execution,
then the host's sampling of its output into the line's temporary, then the next line. -/
def Obligations.StepRunsTheDecodedInstruction : Prop :=
  ∀ s l rest i, s.program = l :: rest → (s.present l).decodeAt l.device = .ok i →
    ∃ t, exec i (s.present l) = .next t ∧ step s = .next ((t.sample i.op l.dest).advance)

/-- R29, R72: a wrapper line whose operands are the fields of a transaction word is decoded as that word is. -/
def Obligations.WrapperLineDecodesAsItsWord : Prop :=
  ∀ (s : State) (t : Nat) (w : BitVec (wordBits s.fmt)),
    (s.present (.wrapper t (.driven (wordOp s.fmt w)) (.lit (wordA s.fmt w)) (.lit (wordB s.fmt w))
      (.lit (wordX s.fmt w)))).decodeAt .wrapper = decodeWord s.fmt w

/-- R69, R28: on a unit of its own an operation needs no select: the line decodes to the unit's operation, with the
operands the line puts there. -/
def Obligations.OwnUnitLinesDecode : Prop :=
  ∀ (s : State) (t : Nat) (x : Native) (a b : Byte),
    (x.fmt = s.fmt → (s.present (.encoder t (.lit x))).decodeAt .encoder = .ok (.enc8 x)) ∧
    (s.present (.decoder t (.lit a))).decodeAt .decoder = .ok (.dec8 a) ∧
    (s.present (.adder t (.lit a) (.lit b))).decodeAt .adder = .ok (.add8 a b) ∧
    (s.present (.multiplier t (.lit a) (.lit b))).decodeAt .multiplier = .ok (.mul8 a b)

/-- R236 with log 8: with no line left the run has ended, and the model's step changes nothing (the model's choice). -/
def Obligations.EndedRunStays : Prop :=
  ∀ s, s.program = [] → step s = .next s

/-- R236, R73, R43: a step takes the line off the program, the line's temporary then holds the output its operation
drove, and every other temporary is as before. -/
def Obligations.StepWritesTheLinesTemporary : Prop :=
  ∀ s l rest t, s.program = l :: rest → step s = .next t →
    t.program = rest ∧
    (∃ o v, l.op = some o ∧ v.kind = o.outKind ∧ t.outputOf o = some v ∧ t.temps.read l.dest = some v) ∧
    ∀ u, u ≠ l.dest → t.temps.read u = s.temps.read u

/-- R234, R73: a later line that names the temporary puts exactly the output on its port. -/
def Obligations.DependentTransactionSeesTheOutput : Prop :=
  ∀ s l rest t o, s.NativesFit → s.program = l :: rest → step s = .next t → l.op = some o →
    (∀ v, t.outputOf o = some (.byte v) → resolveByte t.temps (.temp l.dest) = .driven v) ∧
    ∀ v, t.outputOf o = some (.native v) → resolveNative t.fmt t.temps (.temp l.dest) = .driven v

/-- R29: an input the selected operation does not read has no effect on any output, nor on a temporary. That ENC8 of a NaN
gives both runs one byte is the model's form of the draw (log 4, DESIGN CHOICE). -/
def Obligations.UnreadInputsHaveNoEffect : Prop :=
  ∀ (s : State) rest t (o : OpBits) a b x a' b' x' u,
    (Op.ofBits o = .enc8 → x = x') → (Op.ofBits o = .dec8 → a = a') →
    (Op.ofBits o = .add8 ∨ Op.ofBits o = .mul8 → a = a' ∧ b = b') →
    step { s with program := .wrapper t (.driven o) a b x :: rest } = .next u →
    ∃ u', step { s with program := .wrapper t (.driven o) a' b' x' :: rest } = .next u' ∧
      u'.wrapper.r8 = u.wrapper.r8 ∧ u'.wrapper.y = u.wrapper.y ∧ u'.temps = u.temps ∧ u'.draws = u.draws ∧
      u'.encoder = u.encoder ∧ u'.decoder = u.decoder ∧ u'.adder = u.adder ∧ u'.multiplier = u.multiplier

/-- R203 and R31 ask that a transaction with an undefined input be refused; the form of the refusal is the model's (log 6,
DESIGN CHOICE): a line whose ports do not decode is refused with its device, the port and the reason. On the wrapper the
port is `op` for an unknown select, `x` for ENC8, `a` for the others even where `b` is unknown too, and `b` where `a` is
driven; on a unit of its own it is the one the first clause's decoding names. The reasons are log 6's list. That a step
refuses in no other case is StepStopsOnlyOnUnknownInputs. -/
def Obligations.UnknownInputIsRefused : Prop :=
  ∀ s l rest, s.program = l :: rest →
    (∀ port why, (s.present l).decodeAt l.device = .error ⟨port, why⟩ →
      step s = .refused (.unknownInput l.device port why)) ∧
    (∀ t why a b x, l = .wrapper t (.unknown why) a b x → step s = .refused (.unknownInput .wrapper .op why)) ∧
    (∀ t o a b x why, l = .wrapper t (.driven o) a b x → Op.ofBits o = .enc8 →
      resolveNative s.fmt s.temps x = .unknown why → step s = .refused (.unknownInput .wrapper .x why)) ∧
    (∀ t o a b x why, l = .wrapper t (.driven o) a b x → Op.ofBits o ≠ .enc8 →
      resolveByte s.temps a = .unknown why → step s = .refused (.unknownInput .wrapper .a why)) ∧
    (∀ t o a b x va why, l = .wrapper t (.driven o) a b x → (Op.ofBits o = .add8 ∨ Op.ofBits o = .mul8) →
      resolveByte s.temps a = .driven va → resolveByte s.temps b = .unknown why →
      step s = .refused (.unknownInput .wrapper .b why))

/-- R200, R203, R236: no step faults, and one that refuses does so for an unknown input of its line alone, named in the
model's form (log 6, DESIGN CHOICE); so a line whose operands are defined on the ports its operation reads always runs. -/
def Obligations.StepStopsOnlyOnUnknownInputs : Prop :=
  ∀ s, (∃ t, step s = .next t) ∨
    ∃ l rest port why, s.program = l :: rest ∧ (s.present l).decodeAt l.device = .error ⟨port, why⟩ ∧
      step s = .refused (.unknownInput l.device port why)

/-- R28, R29, R69: the wrapper and the operation's own unit, from one state, give the host the same output for the same
operands. For ENC8 of a NaN no rule says so (R111 lets no two such transactions be taken to agree): there it holds by
the model's form alone, a draw that the count `draws` fixes and that either device takes alike (log 4, DESIGN CHOICE). -/
def Obligations.OwnUnitAgreesWithWrapper : Prop :=
  ∀ (s : State) rest t a b x,
    (∀ u, step { s with program := .encoder t x :: rest } = .next u →
      ∃ u', step { s with program := .wrapper t (.driven 0b00#2) a b x :: rest } = .next u' ∧
        u'.temps = u.temps ∧ u'.draws = u.draws) ∧
    (∀ u, step { s with program := .decoder t a :: rest } = .next u →
      ∃ u', step { s with program := .wrapper t (.driven 0b01#2) a b x :: rest } = .next u' ∧
        u'.temps = u.temps ∧ u'.draws = u.draws) ∧
    (∀ u, step { s with program := .adder t a b :: rest } = .next u →
      ∃ u', step { s with program := .wrapper t (.driven 0b10#2) a b x :: rest } = .next u' ∧
        u'.temps = u.temps ∧ u'.draws = u.draws) ∧
    (∀ u, step { s with program := .multiplier t a b :: rest } = .next u →
      ∃ u', step { s with program := .wrapper t (.driven 0b11#2) a b x :: rest } = .next u' ∧
        u'.temps = u.temps ∧ u'.draws = u.draws)

/-- R46, R51, R234: two transactions on different units that do not depend on each other may run in either order: both
orders end in the same state, but for which was last. Where the encoder's line is of a NaN, that both orders see one byte
is the model's form of the draw (log 4, DESIGN CHOICE). -/
def Obligations.IndependentTransactionsCommute : Prop :=
  ∀ (s : State) (l m : Line) rest (u : State), s.temps.wf = true → l.device ≠ .wrapper → m.device ≠ .wrapper → l.device ≠ m.device →
    l.dest ≠ m.dest → m.dest ∉ lineReads l → l.dest ∉ lineReads m →
    Sys2Proof.core.run 2 ({ s with program := l :: m :: rest } : State) = .next u →
    ∃ u' : State, Sys2Proof.core.run 2 ({ s with program := m :: l :: rest } : State) = .next u' ∧ { u' with via := u.via } = u

/-! ## Invariants -/

/-- R33, R230, with logs 2, 4, 7 and 9: at reset no port carries a value, no temporary is written, no program is loaded,
no draw is taken, and the format is the spec's default (the model's choices for the interface; the block has no state). -/
def Obligations.ResetHoldsNothing : Prop :=
  State.reset.fmt = .binary32 ∧ State.reset.temps = [] ∧ State.reset.program = [] ∧ State.reset.draws = 0 ∧
  State.reset.wrapper =
    ⟨.unknown .undriven, .unknown .undriven, .unknown .undriven, .unknown .undriven, none, none⟩ ∧
  State.reset.encoder = ⟨.unknown .undriven, none⟩ ∧ State.reset.decoder = ⟨.unknown .undriven, none⟩ ∧
  State.reset.adder = ⟨.unknown .undriven, .unknown .undriven, none⟩ ∧
  State.reset.multiplier = ⟨.unknown .undriven, .unknown .undriven, none⟩

/-- R230, R236: the reset state, in either format, meets the invariants below. -/
def Obligations.ResetMeetsTheInvariants : Prop :=
  ∀ fmt, (State.resetAt fmt).OutputsFollow ∧ (State.resetAt fmt).NativesFit ∧
    (State.resetAt fmt).temps.wf = true ∧ (State.resetAt fmt).Ready

/-- R20, R230: every step keeps "each output that carries a value carries its rule's function of the current inputs of
its device", so no output depends on history. -/
def Obligations.StepsKeepOutputsFollowingInputs : Prop :=
  ∀ s t, s.OutputsFollow → step s = .next t → t.OutputsFollow

/-- R28: every step keeps the width of every native pattern on a port and in a temporary. -/
def Obligations.StepsKeepNativeWidths : Prop :=
  ∀ s t, s.NativesFit → step s = .next t → t.NativesFit

/-- R236: every step keeps the map of temporaries a map, in its canonical form. -/
def Obligations.StepsKeepTemporariesCanonical : Prop :=
  ∀ s t, s.temps.wf = true → step s = .next t → t.temps.wf = true

/-- R24, R7: no step changes the build parameter; and the model's own count of draws (log 4) grows by one at most. -/
def Obligations.StepsKeepTheBuildParameter : Prop :=
  ∀ s t, step s = .next t → t.fmt = s.fmt ∧ s.draws ≤ t.draws ∧ t.draws ≤ s.draws + 1

/-- R73, R236, R203: a state whose program reads only temporaries written before, of the right kind, takes its next
step, and the state after is such a one. -/
def Obligations.ReadyProgramsGoOn : Prop :=
  ∀ s, s.Ready → ∃ t, step s = .next t ∧ t.Ready ∧ t.program = s.program.tail

/-- R236: a run of such a program cannot fault, stick or be refused: as many steps as it has lines bring it to its end. -/
def Obligations.ReadyProgramsRunToTheirEnd : Prop :=
  ∀ s : State, s.Ready → ∃ t : State, Sys2Proof.core.run s.program.length s = .next t ∧ t.program = []
end

