-- ==== Sys2Proof/Laws/Exact.lean ====
section
/-!
SUPPORT. What each operation on exact values does to the rational number they are (R8: never rounded).
-/
namespace Sys2Proof.Machine

theorem two_zpow_pos (k : Int) : (0 : Rat) < (2 : Rat) ^ k := zpow_pos (by norm_num) k

@[simp] theorem Exact.toRat_ofInt (n : Int) : (Exact.ofInt n).toRat = n := by
  simp [Exact.toRat, Exact.ofInt]

@[simp] theorem Exact.toRat_neg (r : Exact) : r.neg.toRat = -r.toRat := by
  simp [Exact.toRat, Exact.neg]

@[simp] theorem Exact.toRat_mul (r q : Exact) : (r.mul q).toRat = r.toRat * q.toRat := by
  simp only [Exact.toRat, Exact.mul, zpow_add₀ (two_ne_zero : (2 : Rat) ≠ 0)]
  push_cast
  ring

@[simp] theorem Exact.toRat_scale (r : Exact) (k : Int) : (r.scale k).toRat = r.toRat * (2 : Rat) ^ k := by
  simp only [Exact.toRat, Exact.scale, zpow_add₀ (two_ne_zero : (2 : Rat) ≠ 0)]
  ring

@[simp] theorem Exact.toRat_abs (r : Exact) : r.abs.toRat = |r.toRat| := by
  simp only [Exact.toRat, Exact.abs, abs_mul, abs_of_pos (two_zpow_pos r.exp), Int.natCast_natAbs, Int.cast_abs]

/-- The numerator over a smaller power of two stands for the same value. -/
theorem Exact.numOver_spec (r : Exact) (k : Int) (h : k ≤ r.exp) :
    (r.numOver k : Rat) * (2 : Rat) ^ k = r.toRat := by
  have hk : (2 : Rat) ^ (r.exp - k).toNat * (2 : Rat) ^ k = (2 : Rat) ^ r.exp := by
    rw [← zpow_natCast, ← zpow_add₀ (two_ne_zero : (2 : Rat) ≠ 0)]
    congr 1
    omega
  simp only [Exact.numOver, Exact.toRat]
  push_cast
  rw [mul_assoc, hk]

@[simp] theorem Exact.toRat_add (r q : Exact) : (r.add q).toRat = r.toRat + q.toRat := by
  rw [← r.numOver_spec (min r.exp q.exp) (min_le_left _ _), ← q.numOver_spec (min r.exp q.exp) (min_le_right _ _)]
  simp only [Exact.add, Exact.toRat]
  push_cast
  ring

@[simp] theorem Exact.toRat_sub (r q : Exact) : (r.sub q).toRat = r.toRat - q.toRat := by
  simp [Exact.sub, sub_eq_add_neg]

theorem Exact.isNeg_iff (r : Exact) : r.isNeg = true ↔ r.toRat < 0 := by
  have h : r.toRat < 0 ↔ (r.num : Rat) < 0 := by
    simp only [Exact.toRat]
    constructor
    · intro h
      by_contra hn
      exact absurd h (not_lt.mpr (mul_nonneg (not_lt.mp hn) (two_zpow_pos _).le))
    · intro h
      exact mul_neg_of_neg_of_pos h (two_zpow_pos _)
  rw [h, Exact.isNeg, decide_eq_true_eq, Int.cast_lt_zero]

theorem Exact.isZero_iff (r : Exact) : r.isZero = true ↔ r.toRat = 0 := by
  simp [Exact.isZero, Exact.toRat, (two_zpow_pos r.exp).ne']

/-- R9: `floor` is the greatest integer not above the value. -/
theorem Exact.floor_eq (r : Exact) : r.floor = ⌊r.toRat⌋ := by
  unfold Exact.floor
  split
  · rename_i h
    have e : r.toRat = ((r.num * ((2 ^ r.exp.toNat : Nat) : Int) : Int) : Rat) := by
      simp only [Exact.toRat]
      push_cast
      congr 1
      rw [← zpow_natCast]
      congr 1
      omega
    rw [e, Int.floor_intCast]
  · rename_i h
    have e : r.toRat = (r.num : Rat) / (((2 ^ (-r.exp).toNat : Nat) : Int) : Rat) := by
      have hk : (-r.exp).toNat = -r.exp := by omega
      simp only [Exact.toRat, div_eq_mul_inv]
      push_cast
      rw [← zpow_natCast, ← zpow_neg, hk, neg_neg]
    rw [e]
    exact (Rat.floor_intCast_div_natCast _ _).symm

end Sys2Proof.Machine
end

