-- ==== Sys2Proof/Laws/State.lean ====
section
/-!
SUPPORT. One lemma per field for each update of the state, so that no proof unfolds a record update.
-/
namespace Sys2Proof.Machine

/-! ### takeDraw -/

@[simp] theorem State.takeDraw_fmt (s : State) : (s.takeDraw).fmt = s.fmt := rfl
@[simp] theorem State.takeDraw_via (s : State) : (s.takeDraw).via = s.via := rfl
@[simp] theorem State.takeDraw_wrapper (s : State) : (s.takeDraw).wrapper = s.wrapper := rfl
@[simp] theorem State.takeDraw_encoder (s : State) : (s.takeDraw).encoder = s.encoder := rfl
@[simp] theorem State.takeDraw_decoder (s : State) : (s.takeDraw).decoder = s.decoder := rfl
@[simp] theorem State.takeDraw_adder (s : State) : (s.takeDraw).adder = s.adder := rfl
@[simp] theorem State.takeDraw_multiplier (s : State) : (s.takeDraw).multiplier = s.multiplier := rfl
@[simp] theorem State.takeDraw_temps (s : State) : (s.takeDraw).temps = s.temps := rfl
@[simp] theorem State.takeDraw_program (s : State) : (s.takeDraw).program = s.program := rfl
@[simp] theorem State.takeDraw_draws (s : State) : (s.takeDraw).draws = s.draws + 1 := rfl

/-! ### driveR8 -/

@[simp] theorem State.driveR8_fmt (s : State) (v : Byte) : (s.driveR8 v).fmt = s.fmt := rfl
@[simp] theorem State.driveR8_via (s : State) (v : Byte) : (s.driveR8 v).via = s.via := rfl
@[simp] theorem State.driveR8_wrapper (s : State) (v : Byte) : (s.driveR8 v).wrapper = { s.wrapper with r8 := some v, y := none } := rfl
@[simp] theorem State.driveR8_encoder (s : State) (v : Byte) : (s.driveR8 v).encoder = s.encoder := rfl
@[simp] theorem State.driveR8_decoder (s : State) (v : Byte) : (s.driveR8 v).decoder = s.decoder := rfl
@[simp] theorem State.driveR8_adder (s : State) (v : Byte) : (s.driveR8 v).adder = s.adder := rfl
@[simp] theorem State.driveR8_multiplier (s : State) (v : Byte) : (s.driveR8 v).multiplier = s.multiplier := rfl
@[simp] theorem State.driveR8_temps (s : State) (v : Byte) : (s.driveR8 v).temps = s.temps := rfl
@[simp] theorem State.driveR8_program (s : State) (v : Byte) : (s.driveR8 v).program = s.program := rfl
@[simp] theorem State.driveR8_draws (s : State) (v : Byte) : (s.driveR8 v).draws = s.draws := rfl

/-! ### driveY -/

@[simp] theorem State.driveY_fmt (s : State) (v : Native) : (s.driveY v).fmt = s.fmt := rfl
@[simp] theorem State.driveY_via (s : State) (v : Native) : (s.driveY v).via = s.via := rfl
@[simp] theorem State.driveY_wrapper (s : State) (v : Native) : (s.driveY v).wrapper = { s.wrapper with r8 := none, y := some v } := rfl
@[simp] theorem State.driveY_encoder (s : State) (v : Native) : (s.driveY v).encoder = s.encoder := rfl
@[simp] theorem State.driveY_decoder (s : State) (v : Native) : (s.driveY v).decoder = s.decoder := rfl
@[simp] theorem State.driveY_adder (s : State) (v : Native) : (s.driveY v).adder = s.adder := rfl
@[simp] theorem State.driveY_multiplier (s : State) (v : Native) : (s.driveY v).multiplier = s.multiplier := rfl
@[simp] theorem State.driveY_temps (s : State) (v : Native) : (s.driveY v).temps = s.temps := rfl
@[simp] theorem State.driveY_program (s : State) (v : Native) : (s.driveY v).program = s.program := rfl
@[simp] theorem State.driveY_draws (s : State) (v : Native) : (s.driveY v).draws = s.draws := rfl

/-! ### advance -/

@[simp] theorem State.advance_fmt (s : State) : (s.advance).fmt = s.fmt := rfl
@[simp] theorem State.advance_via (s : State) : (s.advance).via = s.via := rfl
@[simp] theorem State.advance_wrapper (s : State) : (s.advance).wrapper = s.wrapper := rfl
@[simp] theorem State.advance_encoder (s : State) : (s.advance).encoder = s.encoder := rfl
@[simp] theorem State.advance_decoder (s : State) : (s.advance).decoder = s.decoder := rfl
@[simp] theorem State.advance_adder (s : State) : (s.advance).adder = s.adder := rfl
@[simp] theorem State.advance_multiplier (s : State) : (s.advance).multiplier = s.multiplier := rfl
@[simp] theorem State.advance_temps (s : State) : (s.advance).temps = s.temps := rfl
@[simp] theorem State.advance_program (s : State) : (s.advance).program = s.program.tail := rfl
@[simp] theorem State.advance_draws (s : State) : (s.advance).draws = s.draws := rfl

/-! ### load -/

@[simp] theorem State.load_fmt (s : State) (ls : List Line) : (s.load ls).fmt = s.fmt := rfl
@[simp] theorem State.load_via (s : State) (ls : List Line) : (s.load ls).via = s.via := rfl
@[simp] theorem State.load_wrapper (s : State) (ls : List Line) : (s.load ls).wrapper = s.wrapper := rfl
@[simp] theorem State.load_encoder (s : State) (ls : List Line) : (s.load ls).encoder = s.encoder := rfl
@[simp] theorem State.load_decoder (s : State) (ls : List Line) : (s.load ls).decoder = s.decoder := rfl
@[simp] theorem State.load_adder (s : State) (ls : List Line) : (s.load ls).adder = s.adder := rfl
@[simp] theorem State.load_multiplier (s : State) (ls : List Line) : (s.load ls).multiplier = s.multiplier := rfl
@[simp] theorem State.load_temps (s : State) (ls : List Line) : (s.load ls).temps = s.temps := rfl
@[simp] theorem State.load_program (s : State) (ls : List Line) : (s.load ls).program = ls := rfl
@[simp] theorem State.load_draws (s : State) (ls : List Line) : (s.load ls).draws = s.draws := rfl

/-! ### ended -/

@[simp] theorem State.ended_fmt (s : State) : (s.ended).fmt = s.fmt := rfl
@[simp] theorem State.ended_via (s : State) : (s.ended).via = s.via := rfl
@[simp] theorem State.ended_wrapper (s : State) : (s.ended).wrapper = s.wrapper := rfl
@[simp] theorem State.ended_encoder (s : State) : (s.ended).encoder = s.encoder := rfl
@[simp] theorem State.ended_decoder (s : State) : (s.ended).decoder = s.decoder := rfl
@[simp] theorem State.ended_adder (s : State) : (s.ended).adder = s.adder := rfl
@[simp] theorem State.ended_multiplier (s : State) : (s.ended).multiplier = s.multiplier := rfl
@[simp] theorem State.ended_temps (s : State) : (s.ended).temps = s.temps := rfl
@[simp] theorem State.ended_program (s : State) : (s.ended).program = s.program := rfl
@[simp] theorem State.ended_draws (s : State) : (s.ended).draws = s.draws := rfl

/-! ### withFetchWord -/

@[simp] theorem State.withFetchWord_fmt (s : State) (n w : Nat) : (s.withFetchWord n w).fmt = s.fmt := rfl
@[simp] theorem State.withFetchWord_via (s : State) (n w : Nat) : (s.withFetchWord n w).via = s.via := rfl
@[simp] theorem State.withFetchWord_wrapper (s : State) (n w : Nat) : (s.withFetchWord n w).wrapper = s.wrapper := rfl
@[simp] theorem State.withFetchWord_encoder (s : State) (n w : Nat) : (s.withFetchWord n w).encoder = s.encoder := rfl
@[simp] theorem State.withFetchWord_decoder (s : State) (n w : Nat) : (s.withFetchWord n w).decoder = s.decoder := rfl
@[simp] theorem State.withFetchWord_adder (s : State) (n w : Nat) : (s.withFetchWord n w).adder = s.adder := rfl
@[simp] theorem State.withFetchWord_multiplier (s : State) (n w : Nat) : (s.withFetchWord n w).multiplier = s.multiplier := rfl
@[simp] theorem State.withFetchWord_temps (s : State) (n w : Nat) : (s.withFetchWord n w).temps = s.temps := rfl
@[simp] theorem State.withFetchWord_program (s : State) (n w : Nat) : (s.withFetchWord n w).program = tableLine s.fmt n w :: s.program.tail := rfl
@[simp] theorem State.withFetchWord_draws (s : State) (n w : Nat) : (s.withFetchWord n w).draws = s.draws := rfl

/-! ### driveEncoder -/

@[simp] theorem State.driveEncoder_fmt (s : State) (v : Byte) : (s.driveEncoder v).fmt = s.fmt := by
  rcases h : s.via <;> simp [State.driveEncoder, h]
@[simp] theorem State.driveEncoder_via (s : State) (v : Byte) : (s.driveEncoder v).via = s.via := by
  rcases h : s.via <;> simp [State.driveEncoder, h]
@[simp] theorem State.driveEncoder_decoder (s : State) (v : Byte) : (s.driveEncoder v).decoder = s.decoder := by
  rcases h : s.via <;> simp [State.driveEncoder, h]
@[simp] theorem State.driveEncoder_adder (s : State) (v : Byte) : (s.driveEncoder v).adder = s.adder := by
  rcases h : s.via <;> simp [State.driveEncoder, h]
@[simp] theorem State.driveEncoder_multiplier (s : State) (v : Byte) : (s.driveEncoder v).multiplier = s.multiplier := by
  rcases h : s.via <;> simp [State.driveEncoder, h]
@[simp] theorem State.driveEncoder_temps (s : State) (v : Byte) : (s.driveEncoder v).temps = s.temps := by
  rcases h : s.via <;> simp [State.driveEncoder, h]
@[simp] theorem State.driveEncoder_program (s : State) (v : Byte) : (s.driveEncoder v).program = s.program := by
  rcases h : s.via <;> simp [State.driveEncoder, h]
@[simp] theorem State.driveEncoder_draws (s : State) (v : Byte) : (s.driveEncoder v).draws = s.draws := by
  rcases h : s.via <;> simp [State.driveEncoder, h]

theorem State.driveEncoder_onWrapper (s : State) (v : Byte) (h : s.via = .wrapper) : s.driveEncoder v = s.driveR8 v := by
  simp [State.driveEncoder, h]

theorem State.driveEncoder_onOwnUnit (s : State) (v : Byte) (h : s.via = .ownUnit) :
    s.driveEncoder v = ({ s with encoder := { s.encoder with p := some v } } : State) := by
  simp [State.driveEncoder, h]

/-! ### driveDecoder -/

@[simp] theorem State.driveDecoder_fmt (s : State) (v : Native) : (s.driveDecoder v).fmt = s.fmt := by
  rcases h : s.via <;> simp [State.driveDecoder, h]
@[simp] theorem State.driveDecoder_via (s : State) (v : Native) : (s.driveDecoder v).via = s.via := by
  rcases h : s.via <;> simp [State.driveDecoder, h]
@[simp] theorem State.driveDecoder_encoder (s : State) (v : Native) : (s.driveDecoder v).encoder = s.encoder := by
  rcases h : s.via <;> simp [State.driveDecoder, h]
@[simp] theorem State.driveDecoder_adder (s : State) (v : Native) : (s.driveDecoder v).adder = s.adder := by
  rcases h : s.via <;> simp [State.driveDecoder, h]
@[simp] theorem State.driveDecoder_multiplier (s : State) (v : Native) : (s.driveDecoder v).multiplier = s.multiplier := by
  rcases h : s.via <;> simp [State.driveDecoder, h]
@[simp] theorem State.driveDecoder_temps (s : State) (v : Native) : (s.driveDecoder v).temps = s.temps := by
  rcases h : s.via <;> simp [State.driveDecoder, h]
@[simp] theorem State.driveDecoder_program (s : State) (v : Native) : (s.driveDecoder v).program = s.program := by
  rcases h : s.via <;> simp [State.driveDecoder, h]
@[simp] theorem State.driveDecoder_draws (s : State) (v : Native) : (s.driveDecoder v).draws = s.draws := by
  rcases h : s.via <;> simp [State.driveDecoder, h]

theorem State.driveDecoder_onWrapper (s : State) (v : Native) (h : s.via = .wrapper) : s.driveDecoder v = s.driveY v := by
  simp [State.driveDecoder, h]

theorem State.driveDecoder_onOwnUnit (s : State) (v : Native) (h : s.via = .ownUnit) :
    s.driveDecoder v = ({ s with decoder := { s.decoder with y := some v } } : State) := by
  simp [State.driveDecoder, h]

/-! ### driveAdder -/

@[simp] theorem State.driveAdder_fmt (s : State) (v : Byte) : (s.driveAdder v).fmt = s.fmt := by
  rcases h : s.via <;> simp [State.driveAdder, h]
@[simp] theorem State.driveAdder_via (s : State) (v : Byte) : (s.driveAdder v).via = s.via := by
  rcases h : s.via <;> simp [State.driveAdder, h]
@[simp] theorem State.driveAdder_encoder (s : State) (v : Byte) : (s.driveAdder v).encoder = s.encoder := by
  rcases h : s.via <;> simp [State.driveAdder, h]
@[simp] theorem State.driveAdder_decoder (s : State) (v : Byte) : (s.driveAdder v).decoder = s.decoder := by
  rcases h : s.via <;> simp [State.driveAdder, h]
@[simp] theorem State.driveAdder_multiplier (s : State) (v : Byte) : (s.driveAdder v).multiplier = s.multiplier := by
  rcases h : s.via <;> simp [State.driveAdder, h]
@[simp] theorem State.driveAdder_temps (s : State) (v : Byte) : (s.driveAdder v).temps = s.temps := by
  rcases h : s.via <;> simp [State.driveAdder, h]
@[simp] theorem State.driveAdder_program (s : State) (v : Byte) : (s.driveAdder v).program = s.program := by
  rcases h : s.via <;> simp [State.driveAdder, h]
@[simp] theorem State.driveAdder_draws (s : State) (v : Byte) : (s.driveAdder v).draws = s.draws := by
  rcases h : s.via <;> simp [State.driveAdder, h]

theorem State.driveAdder_onWrapper (s : State) (v : Byte) (h : s.via = .wrapper) : s.driveAdder v = s.driveR8 v := by
  simp [State.driveAdder, h]

theorem State.driveAdder_onOwnUnit (s : State) (v : Byte) (h : s.via = .ownUnit) :
    s.driveAdder v = ({ s with adder := { s.adder with s := some v } } : State) := by
  simp [State.driveAdder, h]

/-! ### driveMultiplier -/

@[simp] theorem State.driveMultiplier_fmt (s : State) (v : Byte) : (s.driveMultiplier v).fmt = s.fmt := by
  rcases h : s.via <;> simp [State.driveMultiplier, h]
@[simp] theorem State.driveMultiplier_via (s : State) (v : Byte) : (s.driveMultiplier v).via = s.via := by
  rcases h : s.via <;> simp [State.driveMultiplier, h]
@[simp] theorem State.driveMultiplier_encoder (s : State) (v : Byte) : (s.driveMultiplier v).encoder = s.encoder := by
  rcases h : s.via <;> simp [State.driveMultiplier, h]
@[simp] theorem State.driveMultiplier_decoder (s : State) (v : Byte) : (s.driveMultiplier v).decoder = s.decoder := by
  rcases h : s.via <;> simp [State.driveMultiplier, h]
@[simp] theorem State.driveMultiplier_adder (s : State) (v : Byte) : (s.driveMultiplier v).adder = s.adder := by
  rcases h : s.via <;> simp [State.driveMultiplier, h]
@[simp] theorem State.driveMultiplier_temps (s : State) (v : Byte) : (s.driveMultiplier v).temps = s.temps := by
  rcases h : s.via <;> simp [State.driveMultiplier, h]
@[simp] theorem State.driveMultiplier_program (s : State) (v : Byte) : (s.driveMultiplier v).program = s.program := by
  rcases h : s.via <;> simp [State.driveMultiplier, h]
@[simp] theorem State.driveMultiplier_draws (s : State) (v : Byte) : (s.driveMultiplier v).draws = s.draws := by
  rcases h : s.via <;> simp [State.driveMultiplier, h]

theorem State.driveMultiplier_onWrapper (s : State) (v : Byte) (h : s.via = .wrapper) : s.driveMultiplier v = s.driveR8 v := by
  simp [State.driveMultiplier, h]

theorem State.driveMultiplier_onOwnUnit (s : State) (v : Byte) (h : s.via = .ownUnit) :
    s.driveMultiplier v = ({ s with multiplier := { s.multiplier with r := some v } } : State) := by
  simp [State.driveMultiplier, h]

/-! ### present -/

@[simp] theorem State.present_fmt (s : State) (l : Line) : (s.present l).fmt = s.fmt := by cases l <;> rfl
@[simp] theorem State.present_temps (s : State) (l : Line) : (s.present l).temps = s.temps := by cases l <;> rfl
@[simp] theorem State.present_program (s : State) (l : Line) : (s.present l).program = s.program := by cases l <;> rfl
@[simp] theorem State.present_draws (s : State) (l : Line) : (s.present l).draws = s.draws := by cases l <;> rfl

/-! ### sample -/

@[simp] theorem State.sample_fmt (s : State) (o : Op) (t : Nat) : (s.sample o t).fmt = s.fmt := by
  unfold State.sample; split <;> rfl
@[simp] theorem State.sample_via (s : State) (o : Op) (t : Nat) : (s.sample o t).via = s.via := by
  unfold State.sample; split <;> rfl
@[simp] theorem State.sample_wrapper (s : State) (o : Op) (t : Nat) : (s.sample o t).wrapper = s.wrapper := by
  unfold State.sample; split <;> rfl
@[simp] theorem State.sample_encoder (s : State) (o : Op) (t : Nat) : (s.sample o t).encoder = s.encoder := by
  unfold State.sample; split <;> rfl
@[simp] theorem State.sample_decoder (s : State) (o : Op) (t : Nat) : (s.sample o t).decoder = s.decoder := by
  unfold State.sample; split <;> rfl
@[simp] theorem State.sample_adder (s : State) (o : Op) (t : Nat) : (s.sample o t).adder = s.adder := by
  unfold State.sample; split <;> rfl
@[simp] theorem State.sample_multiplier (s : State) (o : Op) (t : Nat) : (s.sample o t).multiplier = s.multiplier := by
  unfold State.sample; split <;> rfl
@[simp] theorem State.sample_program (s : State) (o : Op) (t : Nat) : (s.sample o t).program = s.program := by
  unfold State.sample; split <;> rfl
@[simp] theorem State.sample_draws (s : State) (o : Op) (t : Nat) : (s.sample o t).draws = s.draws := by
  unfold State.sample; split <;> rfl

theorem State.sample_temps_of_output (s : State) (o : Op) (t : Nat) (v : Result) (h : s.outputOf o = some v) :
    (s.sample o t).temps = s.temps.write t v := by
  simp [State.sample, h]

end Sys2Proof.Machine
end

