-- ==== Sys2Proof/Laws/Temps.lean ====
section
/-!
SUPPORT. The host's temporaries: read after write, and the canonical form every write keeps.
-/
namespace Sys2Proof.Machine

theorem Temps.read_write_same (ts : Temps) (t : Nat) (v : Result) : (Temps.write ts t v).read t = some v := by
  induction ts with
  | nil => simp [Temps.write, Temps.read]
  | cons c rest ih =>
    obtain ⟨u, q⟩ := c
    by_cases h1 : t < u
    · simp [Temps.write, Temps.read, h1]
    · by_cases h2 : t = u
      · simp [Temps.write, Temps.read, h2]
      · have h3 : u ≠ t := fun h => h2 h.symm
        simp [Temps.write, Temps.read, h1, h2, h3, ih]

theorem Temps.read_write_other (ts : Temps) (t u : Nat) (v : Result) (h : u ≠ t) :
    (Temps.write ts t v).read u = ts.read u := by
  have h' : t ≠ u := fun e => h e.symm
  induction ts with
  | nil => simp [Temps.write, Temps.read, h']
  | cons c rest ih =>
    obtain ⟨w, q⟩ := c
    by_cases h1 : t < w
    · simp [Temps.write, Temps.read, h1, h']
    · by_cases h2 : t = w
      · subst h2
        simp [Temps.write, Temps.read, h']
      · simp [Temps.write, Temps.read, h1, h2, ih]

/-- A bound below every number of the list stays one when a larger number is written. -/
theorem Temps.all_lt_write (ts : Temps) (b t : Nat) (v : Result) (hb : b < t)
    (h : ts.all (fun c => decide (b < c.1)) = true) :
    (Temps.write ts t v).all (fun c => decide (b < c.1)) = true := by
  induction ts with
  | nil => simp [Temps.write, hb]
  | cons c rest ih =>
    obtain ⟨u, q⟩ := c
    simp only [List.all_cons, Bool.and_eq_true, decide_eq_true_eq] at h
    by_cases h1 : t < u
    · simp only [Temps.write, h1, if_true, List.all_cons, Bool.and_eq_true, decide_eq_true_eq]
      exact ⟨hb, h.1, h.2⟩
    · by_cases h2 : t = u
      · subst h2
        simpa [Temps.write] using h
      · simp only [Temps.write, h1, h2, if_false, List.all_cons, Bool.and_eq_true, decide_eq_true_eq]
        exact ⟨h.1, ih h.2⟩

theorem Temps.write_wf (ts : Temps) (t : Nat) (v : Result) (h : Temps.wf ts = true) :
    Temps.wf (Temps.write ts t v) = true := by
  induction ts with
  | nil => simp [Temps.write, Temps.wf]
  | cons c rest ih =>
    obtain ⟨u, q⟩ := c
    simp only [Temps.wf, Bool.and_eq_true] at h
    by_cases h1 : t < u
    · have hrest : rest.all (fun c => decide (t < c.1)) = true := by
        simp only [List.all_eq_true, decide_eq_true_eq] at h ⊢
        exact fun c hc => Nat.lt_trans h1 (h.1 c hc)
      simp [Temps.write, h1, Temps.wf, h.1, h.2, hrest]
    · by_cases h2 : t = u
      · subst h2
        simp [Temps.write, Temps.wf, h.1, h.2]
      · have hlt : u < t := by omega
        simp only [Temps.write, h1, h2, if_false, Temps.wf, Bool.and_eq_true]
        exact ⟨Temps.all_lt_write rest u t v hlt h.1, ih h.2⟩

end Sys2Proof.Machine
end

