-- ==== Sys2Proof/Laws/Ops.lean ====
section
/-!
SUPPORT. What each shared operation can do, said once: reading a port, decoding what is presented, driving an output,
sampling it, executing an instruction, and one step.
-/
namespace Sys2Proof.Machine

@[simp] theorem Input.read_driven {α : Type} (port : PortName) (v : α) : (Input.driven v).read port = .ok v := rfl

@[simp] theorem Input.read_unknown {α : Type} (port : PortName) (why : Unknown) :
    (Input.unknown why : Input α).read port = .error ⟨port, why⟩ := rfl

/-- A port is read only when it is driven, and gives what drives it. -/
theorem Input.read_eq_ok {α : Type} {port : PortName} {i : Input α} {v : α} :
    i.read port = .ok v ↔ i = .driven v := by
  cases i <;> simp [Input.read]

@[simp] theorem Op.ofBits_bits (o : Op) : Op.ofBits o.bits = o := by cases o <;> rfl

@[simp] theorem Op.bits_ofBits (o : OpBits) : (Op.ofBits o).bits = o := by
  revert o; decide

/-- What the ports of the wrapper decode to (R70): the selected operation, on the ports it reads. -/
theorem decodePorts_eq_ok {op : Input OpBits} {a b : Input Byte} {x : Input Native} {i : Instr} :
    decodePorts op a b x = .ok i ↔
      (op = .driven Op.enc8.bits ∧ ∃ v, x = .driven v ∧ i = .enc8 v) ∨
      (op = .driven Op.dec8.bits ∧ ∃ v, a = .driven v ∧ i = .dec8 v) ∨
      (op = .driven Op.add8.bits ∧ ∃ v w, a = .driven v ∧ b = .driven w ∧ i = .add8 v w) ∨
      (op = .driven Op.mul8.bits ∧ ∃ v w, a = .driven v ∧ b = .driven w ∧ i = .mul8 v w) := by
  cases op with
  | unknown why => simp [decodePorts]
  | driven o =>
    have ho : o = (Op.ofBits o).bits := (Op.bits_ofBits o).symm
    rw [ho]
    generalize Op.ofBits o = k
    cases k <;> cases a <;> cases b <;> cases x <;>
      simp [decodePorts, Op.bits, Op.ofBits, Input.read, Except.map, Except.bind, eq_comm]

/-- An operation's drive reaches its own output port, wherever the transaction stands. -/
@[simp] theorem State.outputOf_driveEncoder (s : State) (v : Byte) :
    (s.driveEncoder v).outputOf .enc8 = some (.byte v) := by
  rcases h : s.via <;> simp [State.driveEncoder, State.driveR8, State.outputOf, h]

@[simp] theorem State.outputOf_driveDecoder (s : State) (v : Native) :
    (s.driveDecoder v).outputOf .dec8 = some (.native v) := by
  rcases h : s.via <;> simp [State.driveDecoder, State.driveY, State.outputOf, h]

@[simp] theorem State.outputOf_driveAdder (s : State) (v : Byte) :
    (s.driveAdder v).outputOf .add8 = some (.byte v) := by
  rcases h : s.via <;> simp [State.driveAdder, State.driveR8, State.outputOf, h]

@[simp] theorem State.outputOf_driveMultiplier (s : State) (v : Byte) :
    (s.driveMultiplier v).outputOf .mul8 = some (.byte v) := by
  rcases h : s.via <;> simp [State.driveMultiplier, State.driveR8, State.outputOf, h]

/-- Everything an execution can do: it always answers a next state, and that is one of four drives. -/
theorem exec_cases (i : Instr) (s : State) :
    (∃ x, i = .enc8 x ∧ exec i s = .next ((if isNaN x then s.takeDraw else s).driveEncoder
      (enc Config.encodeExpAdjust x s.nextDraw))) ∨
    (∃ a, i = .dec8 a ∧ exec i s = .next (s.driveDecoder (dec s.fmt a))) ∨
    (∃ a b, i = .add8 a b ∧ exec i s = .next (s.driveAdder (add8 Config.encodeExpAdjust a b))) ∨
    (∃ a b, i = .mul8 a b ∧ exec i s = .next (s.driveMultiplier (mul8 Config.encodeExpAdjust a b))) := by
  cases i with
  | enc8 x => exact .inl ⟨x, rfl, rfl⟩
  | dec8 a => exact .inr (.inl ⟨a, rfl, rfl⟩)
  | add8 a b => exact .inr (.inr (.inl ⟨a, b, rfl, rfl⟩))
  | mul8 a b => exact .inr (.inr (.inr ⟨a, b, rfl, rfl⟩))

/-- Everything a step can do: the run has ended; or the next line's input is not known and the step refuses; or the
line's instruction runs, its output is sampled, and the line is taken off. -/
theorem step_cases (s : State) :
    (s.program = [] ∧ step s = .next s) ∨
    (∃ l rest r, s.program = l :: rest ∧ (s.present l).decodeAt l.device = .error r ∧
      step s = .refused (refuseInput l.device r)) ∨
    (∃ l rest i t, s.program = l :: rest ∧ (s.present l).decodeAt l.device = .ok i ∧
      exec i (s.present l) = .next t ∧ step s = .next (t.sample i.op l.dest).advance) := by
  rcases hp : s.program with _ | ⟨l, rest⟩
  · exact .inl ⟨rfl, by simp [step, hp, State.ended]⟩
  · right
    rcases hd : (s.present l).decodeAt l.device with r | i
    · exact .inl ⟨l, rest, r, rfl, hd, by simp [step, hp, hd]⟩
    · right
      obtain ⟨x, -, hx⟩ | ⟨a, -, hx⟩ | ⟨a, b, -, hx⟩ | ⟨a, b, -, hx⟩ := exec_cases i (s.present l) <;>
        exact ⟨l, rest, i, _, rfl, hd, hx, by simp [step, hp, hd, hx, afterExec, State.retire]⟩

end Sys2Proof.Machine
end

