-- ==== Sys2Proof/Laws/Codec.lean ====
section
/-!
SUPPORT. The values of native patterns, and what of ENC8 and DEC8 the rest rests on: the draw counts for a NaN alone, a
decoded pattern has the block's format.
-/
namespace Sys2Proof.Machine

/-- R65: a NaN by its fields is a NaN by its value, and the other way round. -/
theorem val_eq_nan_iff (x : Native) : val x = .nan ↔ isNaN x = true := by
  unfold val isNaN
  dsimp only
  split_ifs <;> simp_all

theorem ratOf_of_finite {x : Native} {r : Exact} (h : val x = .finite r) : ratOf x = some r.toRat := by
  simp [ratOf, h]

theorem ratOf_of_zero {x : Native} {n : Bool} (h : val x = .zero n) : ratOf x = some 0 := by
  simp [ratOf, h]

/-- A pattern with a rational value is no NaN. -/
theorem isNaN_of_ratOf {x : Native} {q : Rat} (h : ratOf x = some q) : isNaN x = false := by
  rcases hn : isNaN x
  · rfl
  · simp [ratOf, (val_eq_nan_iff x).mpr hn] at h

theorem rangeCase_eq_nan_iff (adj : ExpAdjust) (v : Value) : rangeCase adj v = .nan ↔ v = .nan := by
  unfold rangeCase
  split
  · simp
  · simp
  · simp
  · split_ifs <;> simp

/-- R109: the draw is used for a NaN alone. -/
theorem encodeValue_draw (adj : ExpAdjust) (v : Value) (h : v ≠ .nan) (d d' : Byte) :
    encodeValue adj v d = encodeValue adj v d' := by
  have hc : rangeCase adj v ≠ .nan := fun e => h ((rangeCase_eq_nan_iff adj v).mp e)
  unfold encodeValue
  split
  · contradiction
  all_goals rfl

theorem enc_draw (adj : ExpAdjust) (x : Native) (h : isNaN x = false) (d d' : Byte) : enc adj x d = enc adj x d' := by
  refine encodeValue_draw adj (val x) (fun e => ?_) d d'
  rw [(val_eq_nan_iff x).mp e] at h
  cases h

/-- R111: ENC8 of a NaN is its draw. -/
theorem enc_of_isNaN (adj : ExpAdjust) (x : Native) (h : isNaN x = true) (d : Byte) : enc adj x d = d := by
  simp [enc, encodeValue, rangeCase, (val_eq_nan_iff x).mpr h]

@[simp] theorem packNative_fmt (fmt : NativeFmt) (s : Bool) (e f : Nat) : (packNative fmt s e f).fmt = fmt := by
  cases fmt <;> rfl

@[simp] theorem ofNat_fmt (fmt : NativeFmt) (n : Nat) : (Native.ofNat fmt n).fmt = fmt := by
  cases fmt <;> rfl

/-- R66, R130: a native pattern that is formed has the format asked for. -/
@[simp] theorem bitsNative_fmt (fmt : NativeFmt) (r : Exact) : (bitsNative fmt r).fmt = fmt := by
  unfold bitsNative
  split <;> simp

@[simp] theorem dec_fmt (fmt : NativeFmt) (p : Byte) : (dec fmt p).fmt = fmt := bitsNative_fmt fmt (decR p)

/-- What an execution leaves of the host's side: everything, but the count of draws; and its output has the kind and the
width of its operation's output. -/
theorem exec_host_side {i : Instr} {s t : State} (h : exec i s = .next t) :
    t.fmt = s.fmt ∧ t.via = s.via ∧ t.temps = s.temps ∧ t.program = s.program ∧
      ∃ v, t.outputOf i.op = some v ∧ v.kind = i.op.outKind ∧ resultFits s.fmt v := by
  cases i with
  | enc8 x =>
    simp only [exec, execEnc8, Host.Outcome.next.injEq] at h
    subst h
    rcases isNaN x <;> simp [Instr.op, Result.kind, Op.outKind, resultFits]
  | dec8 a =>
    simp only [exec, execDec8, Host.Outcome.next.injEq] at h
    subst h
    simp [Instr.op, Result.kind, Op.outKind, resultFits]
  | add8 a b =>
    simp only [exec, execAdd8, Host.Outcome.next.injEq] at h
    subst h
    simp [Instr.op, Result.kind, Op.outKind, resultFits]
  | mul8 a b =>
    simp only [exec, execMul8, Host.Outcome.next.injEq] at h
    subst h
    simp [Instr.op, Result.kind, Op.outKind, resultFits]

end Sys2Proof.Machine
end

