-- ==== Sys2Proof/Laws/Decode.lean ====
section
/-!
SUPPORT. The fields of a transaction word that was put together field by field (R72).
-/
namespace Sys2Proof

/-- The fields of four bit vectors side by side, for a low part of any width. -/
theorem append_fields (n : Nat) (o : OpBits) (a b : Byte) (x : BitVec n) :
    (o ++ a ++ b ++ x).extractLsb' (n + 16) 2 = o ∧ (o ++ a ++ b ++ x).extractLsb' (n + 8) 8 = a ∧
      (o ++ a ++ b ++ x).extractLsb' n 8 = b ∧ (o ++ a ++ b ++ x).toNat % 2 ^ n = x.toNat := by
  refine ⟨?_, ?_, ?_, ?_⟩
  · ext i hi
    simp [BitVec.getLsbD_append, BitVec.getElem_extractLsb']
    grind
  · ext i hi
    simp [BitVec.getLsbD_append, BitVec.getElem_extractLsb']
    grind
  · ext i hi
    simp [BitVec.getLsbD_append, BitVec.getElem_extractLsb']
    grind
  · rw [BitVec.toNat_append, ← Nat.shiftLeft_add_eq_or_of_lt x.isLt, Nat.shiftLeft_eq]
    simp [Nat.mod_eq_of_lt x.isLt]

theorem wordOp_packWord (fmt : NativeFmt) (o : OpBits) (a b : Byte) (x : Nat) :
    wordOp fmt (packWord fmt o a b x) = o := (append_fields _ o a b _).1

theorem wordA_packWord (fmt : NativeFmt) (o : OpBits) (a b : Byte) (x : Nat) :
    wordA fmt (packWord fmt o a b x) = a := (append_fields _ o a b _).2.1

theorem wordB_packWord (fmt : NativeFmt) (o : OpBits) (a b : Byte) (x : Nat) :
    wordB fmt (packWord fmt o a b x) = b := (append_fields _ o a b _).2.2.1

/-- A native pattern is given back by its bits. -/
theorem ofNat_toNat (x : Native) : Native.ofNat x.fmt x.toNat = x := by
  cases x <;> simp [Native.fmt, Native.ofNat, Native.toNat]

/-- Only the low `W` bits of a number reach a native port. -/
theorem ofNat_mod (fmt : NativeFmt) (n : Nat) : Native.ofNat fmt (n % 2 ^ fmt.width) = Native.ofNat fmt n := by
  cases fmt
  · have h : BitVec.ofNat 32 (n % 2 ^ 32) = BitVec.ofNat 32 n := by apply BitVec.eq_of_toNat_eq; simp
    exact congrArg Native.b32 h
  · have h : BitVec.ofNat 64 (n % 2 ^ 64) = BitVec.ofNat 64 n := by apply BitVec.eq_of_toNat_eq; simp
    exact congrArg Native.b64 h

theorem wordX_packWord (fmt : NativeFmt) (o : OpBits) (a b : Byte) (x : Nat) :
    wordX fmt (packWord fmt o a b x) = Native.ofNat fmt x := by
  have h := (append_fields fmt.width o a b (BitVec.ofNat fmt.width x)).2.2.2
  unfold wordX packWord
  rw [← ofNat_mod, h, BitVec.toNat_ofNat, ofNat_mod]

end Sys2Proof
end

