-- ==== Sys2Proof/Laws/PerInstr.lean ====
section
/-!
SUPPORT. Statements for all instructions, one lemma a constructor: what a transaction word decodes to is well formed.
-/
namespace Sys2Proof.Laws

/-- Whatever word of either format decodes to `i`, `i` is well formed for that format, and the word's select is the code
of `i`'s operation (R70, R28). -/
def DecodedWellFormed.Statement (i : Instr) : Prop :=
  ∀ (fmt : NativeFmt) (w : BitVec (wordBits fmt)), decodeWord fmt w = .ok i →
    i.wf fmt = true ∧ wordOp fmt w = i.op.bits

/-- The pattern a word carries has the format the word is read in. -/
theorem wordX_fmt (fmt : NativeFmt) (w : BitVec (wordBits fmt)) : (wordX fmt w).fmt = fmt := by
  cases fmt <;> rfl

/-- A word decodes by its select alone. -/
theorem decodeWord_cases (fmt : NativeFmt) (w : BitVec (wordBits fmt)) :
    (wordOp fmt w = Op.enc8.bits ∧ decodeWord fmt w = .ok (.enc8 (wordX fmt w))) ∨
    (wordOp fmt w = Op.dec8.bits ∧ decodeWord fmt w = .ok (.dec8 (wordA fmt w))) ∨
    (wordOp fmt w = Op.add8.bits ∧ decodeWord fmt w = .ok (.add8 (wordA fmt w) (wordB fmt w))) ∨
    (wordOp fmt w = Op.mul8.bits ∧ decodeWord fmt w = .ok (.mul8 (wordA fmt w) (wordB fmt w))) := by
  have h : ∀ o : OpBits, o = Op.enc8.bits ∨ o = Op.dec8.bits ∨ o = Op.add8.bits ∨ o = Op.mul8.bits := by decide
  unfold decodeWord
  rcases h (wordOp fmt w) with e | e | e | e <;> rw [e] <;>
    simp [decodePorts, Op.bits, Op.ofBits, Input.read, Except.map, Except.bind]

theorem DecodedWellFormed.enc8 (x : Native) : DecodedWellFormed.Statement (.enc8 x) := by
  intro fmt w h
  rcases decodeWord_cases fmt w with ⟨e, d⟩ | ⟨e, d⟩ | ⟨e, d⟩ | ⟨e, d⟩ <;> rw [d] at h <;>
    simp only [Except.ok.injEq, Instr.enc8.injEq, reduceCtorEq] at h
  exact ⟨by simp [Instr.wf, ← h, wordX_fmt], e⟩

theorem DecodedWellFormed.dec8 (a : Byte) : DecodedWellFormed.Statement (.dec8 a) := by
  intro fmt w h
  rcases decodeWord_cases fmt w with ⟨e, d⟩ | ⟨e, d⟩ | ⟨e, d⟩ | ⟨e, d⟩ <;> rw [d] at h <;>
    simp only [Except.ok.injEq, reduceCtorEq] at h
  exact ⟨rfl, e⟩

theorem DecodedWellFormed.add8 (a b : Byte) : DecodedWellFormed.Statement (.add8 a b) := by
  intro fmt w h
  rcases decodeWord_cases fmt w with ⟨e, d⟩ | ⟨e, d⟩ | ⟨e, d⟩ | ⟨e, d⟩ <;> rw [d] at h <;>
    simp only [Except.ok.injEq, reduceCtorEq] at h
  exact ⟨rfl, e⟩

theorem DecodedWellFormed.mul8 (a b : Byte) : DecodedWellFormed.Statement (.mul8 a b) := by
  intro fmt w h
  rcases decodeWord_cases fmt w with ⟨e, d⟩ | ⟨e, d⟩ | ⟨e, d⟩ | ⟨e, d⟩ <;> rw [d] at h <;>
    simp only [Except.ok.injEq, reduceCtorEq] at h
  exact ⟨rfl, e⟩

end Sys2Proof.Laws
end

