-- ==== Sys2Proof/Tests/Slice0.lean ====
section
/-!
SUPPORT. The model's own tests: what WellFormed refuses, words written out from the encodings, the spec's vectors
(spec/95), and for every statement with hypotheses a state and operands that meet them.
-/
namespace Sys2Proof.Tests
open Sys2Proof Sys2Proof.Machine

/-- The next state, where there is one. -/
def nextOf : Host.Outcome State Fault Refusal → Option State
  | .next s => some s
  | .fault _ => none
  | .refused _ => none

/-- The refusal, where there is one. -/
def refusalOf : Host.Outcome State Fault Refusal → Option Refusal
  | .next _ => none
  | .fault _ => none
  | .refused r => some r

/-- What the wrapper's `r8` carries after an instruction from reset. -/
def r8Of (i : Instr) : Option Byte := (nextOf (exec i State.reset)).bind fun t => t.wrapper.r8

/-- What the wrapper's `y` carries after an instruction on a block of the given format. -/
def yOf (fmt : NativeFmt) (i : Instr) : Option Native :=
  (nextOf (exec i (State.resetAt fmt))).bind fun t => t.wrapper.y

/-- The reset state with one line to run and some temporaries. -/
def loaded (ts : Temps) (ls : List Line) : State := { State.reset.load ls with temps := ts }

/-- The reset state with the transaction on the operation's own unit. -/
def onOwnUnit : State := { State.reset with via := .ownUnit }

/-! ## WellFormed -/

theorem test_wf_accepts_width : (Instr.enc8 (.b32 0)).wf .binary32 = true := by decide
theorem test_wf_refuses_width : (Instr.enc8 (.b64 0)).wf .binary32 = false := by decide
theorem test_wf_refuses_literal_of_other_width :
    (Line.encoder 0 (.lit (.b32 0))).wf .binary64 [] = false := by decide
theorem test_wf_refuses_unwritten_temp : (Line.decoder 1 (.temp 0)).wf .binary32 [] = false := by decide
theorem test_wf_refuses_native_temp_on_byte_port :
    (Line.adder 1 (.lit 0) (.temp 0)).wf .binary32 [(0, .native)] = false := by decide
theorem test_wf_refuses_byte_temp_on_native_port :
    (Line.encoder 1 (.temp 0)).wf .binary32 [(0, .byte)] = false := by decide
theorem test_wf_refuses_undriven : (Line.decoder 1 .undriven).wf .binary32 [] = false := by decide
theorem test_wf_refuses_changing : (Line.multiplier 1 .changing (.lit 0)).wf .binary32 [] = false := by decide
theorem test_wf_refuses_undriven_native : (Line.encoder 1 .undriven).wf .binary32 [] = false := by decide
theorem test_wf_refuses_unknown_select :
    (Line.wrapper 0 (.unknown .undriven) (.lit 0) (.lit 0) (.lit (.b32 0))).wf .binary32 [] = false := by decide
/-- R29: ports the operation does not read may hold anything. -/
theorem test_wf_accepts_unread_undriven :
    (Line.wrapper 0 (.driven 0b01#2) (.lit 0) .undriven .changing).wf .binary32 [] = true := by decide
theorem test_program_wf : programWf .binary32 [] [.encoder 0 (.lit (.b32 0)), .decoder 1 (.temp 0)] = true := by decide
theorem test_program_refuses_read_before_write :
    programWf .binary32 [] [.decoder 1 (.temp 0), .encoder 0 (.lit (.b32 0))] = false := by decide

/-! ## Decoding: words written out bit by bit from R70 and R72 -/

/-- op 00, a 0, b 0, x 0x3F800000. -/
theorem test_decode_enc8 :
    decodeWord .binary32 0b00_00000000_00000000_00111111100000000000000000000000#50 =
      .ok (.enc8 (.b32 0x3F800000#32)) := by decide
/-- op 01, a 0xC5, b and x unread. -/
theorem test_decode_dec8 :
    decodeWord .binary32 0b01_11000101_11111111_00000000000000000000000000000001#50 = .ok (.dec8 0xC5#8) := by decide
/-- op 10, a 0x48, b 0x4C. -/
theorem test_decode_add8 :
    decodeWord .binary32 0b10_01001000_01001100_00000000000000000000000000000000#50 =
      .ok (.add8 0x48#8 0x4C#8) := by decide
/-- op 11, a 0x48, b 0x50. -/
theorem test_decode_mul8 :
    decodeWord .binary32 0b11_01001000_01010000_00000000000000000000000000000000#50 =
      .ok (.mul8 0x48#8 0x50#8) := by decide
/-- op 00 on a block built for binary64 (W = 64). -/
theorem test_decode_enc8_binary64 :
    decodeWord .binary64 0x00000BFF0000000000000#82 = .ok (.enc8 (.b64 0xBFF0000000000000#64)) := by decide
theorem test_encode_mul8 : encode .binary32 (.mul8 0x48#8 0x50#8) = 0x3485000000000#50 := rfl
theorem test_table_rows :
    decodeTableWord 8 0 = some (.enc8 (.b32 0)) ∧ decodeTableWord 8 1 = some (.dec8 0) ∧
    decodeTableWord 8 2 = some (.add8 0 0) ∧ decodeTableWord 8 3 = some (.mul8 0 0) := by decide
/-- A table word is the first transaction after reset: DEC8 of 0x00 gives +0. -/
theorem test_fetch_word :
    (nextOf (step (State.reset.withFetchWord 8 1))).map (fun t => t.temps) =
      some [(0, .native (.b32 0))] := by decide

/-! ## Vectors of spec/95 -/

/-- L2.1: 0.3 truncates to 0x31, -2^-7 gives 0x88, the pattern below 2^-7 gives 0x00; a NaN uses a draw up. -/
theorem test_enc8_binary32 :
    r8Of (.enc8 (.b32 0x3E99999A#32)) = some 0x31#8 ∧ r8Of (.enc8 (.b32 0xBC000000#32)) = some 0x88#8 ∧
      r8Of (.enc8 (.b32 0x3BFFFFFF#32)) = some 0x00#8 ∧
      (nextOf (exec (.enc8 (.b32 0x7F800001#32)) State.reset)).map (fun t => t.draws) = some 1 := by decide
/-- L2.2: just below 256 gives 0x7F, 256 gives 0x78. -/
theorem test_enc8_binary64_step :
    r8Of (.enc8 (.b64 0x406FFFFFFFFFFFFF#64)) = some 0x7F#8 ∧
      r8Of (.enc8 (.b64 0x4070000000000000#64)) = some 0x78#8 := by decide
/-- L2.3: 0xC5 is -3.25, 0x80 is -2^-7. -/
theorem test_dec8 :
    yOf .binary32 (.dec8 0xC5#8) = some (.b32 0xC0500000#32) ∧
      yOf .binary32 (.dec8 0x80#8) = some (.b32 0xBC000000#32) := by decide
theorem test_dec8_binary64 : yOf .binary64 (.dec8 0x01#8) = some (.b64 0x3F82000000000000#64) := by decide
/-- L2.5: a sum of 1.8837890625 truncates; a difference of 2^-9 flushes. -/
theorem test_add8 : r8Of (.add8 0x3F#8 0x01#8) = some 0x47#8 ∧ r8Of (.add8 0x09#8 0x88#8) = some 0x00#8 := by decide
theorem test_add8_on_own_unit :
    (nextOf (exec (.add8 0xFF#8 0x77#8) onOwnUnit)).bind (fun t => t.adder.s) = some 0xFF#8 := by decide
/-- L2.6: a negative product, and one of exactly 2^-7. -/
theorem test_mul8 : r8Of (.mul8 0xC4#8 0x44#8) = some 0xD9#8 ∧ r8Of (.mul8 0x18#8 0x20#8) = some 0x08#8 := by decide
theorem test_mul8_inactive_output :
    (nextOf (exec (.mul8 0x7F#8 0x7F#8) State.reset)).map (fun t => (t.wrapper.r8, t.wrapper.y)) =
      some (some 0x78#8, none) := by decide
/-- L2.8: the alternative exponent offset, which the machine does not use. -/
theorem test_alternative_offset :
    enc .alternative (.b32 0x40400000#32) 0 = 0x44#8 ∧ enc .alternative (.b32 0x3C000000#32) 0 = 0x00#8 := by decide

/-! ## The run and its text -/

/-- P1, third line: a later line takes the temporaries' values. -/
theorem test_step_reads_temporaries :
    (nextOf (step (loaded [(0, .byte 0x48#8), (1, .byte 0x4C#8)] [.adder 2 (.temp 0) (.temp 1)]))).map
      (fun t => t.temps) = some [(0, .byte 0x48#8), (1, .byte 0x4C#8), (2, .byte 0x5A#8)] := by decide
theorem test_step_refuses_unwritten :
    refusalOf (step (loaded [] [.decoder 1 (.temp 0)])) = some (.unknownInput .decoder .p .unwritten) := by decide
theorem test_step_refuses_wrong_width :
    refusalOf (step (loaded [] [.encoder 1 (.lit (.b64 0))])) = some (.unknownInput .encoder .x .wrongWidth) := by decide
theorem test_step_refuses_changing :
    refusalOf (step (loaded [] [.wrapper 1 (.driven 0b10#2) (.lit 0) .changing .undriven])) =
      some (.unknownInput .wrapper .b .changing) := by decide
theorem test_assemble_enc8 :
    assembleLine .binary32 "ENC8 t0, 0x40400000      ; 3.0".toList =
      some (.wrapper 0 (.driven 0b00#2) (.lit 0) (.lit 0) (.lit (.b32 0x40400000#32))) := by decide
theorem test_assemble_add8 :
    assembleLine .binary32 "ADD8 t7, t5, 0x08".toList =
      some (.wrapper 7 (.driven 0b10#2) (.temp 5) (.lit 0x08#8) (.lit (.b32 0))) := by decide
theorem test_assemble_dec8 :
    assembleLine .binary32 "DEC8 t3, t2".toList =
      some (.wrapper 3 (.driven 0b01#2) (.temp 2) (.lit 0) (.lit (.b32 0))) := by decide
theorem test_assemble_mul8 :
    assembleLine .binary32 "MUL8 t2, t1, 0x30".toList =
      some (.wrapper 2 (.driven 0b11#2) (.temp 1) (.lit 0x30#8) (.lit (.b32 0))) := by decide
/-- R73: a native literal has W bits; there are no pseudo-instructions. -/
theorem test_assemble_refuses :
    assembleLine .binary32 "ENC8 t0, 0x4040".toList = none ∧ assembleLine .binary32 "SUB8 t0, t1, t2".toList = none := by
  decide

/-! ## Values used below -/

theorem ratOf_one : ratOf (.b32 0x3F800000#32) = some 1 := by
  have h : val (.b32 0x3F800000#32) = .finite ⟨8388608, -23⟩ := by decide
  rw [ratOf_of_finite h]; norm_num [Exact.toRat]
theorem ratOf_neg_one_binary64 : ratOf (.b64 0xBFF0000000000000#64) = some (-1) := by
  have h : val (.b64 0xBFF0000000000000#64) = .finite ⟨-4503599627370496, -52⟩ := by decide
  rw [ratOf_of_finite h]; norm_num [Exact.toRat]
theorem ratOf_one_binary64 : ratOf (.b64 0x3FF0000000000000#64) = some 1 := by
  have h : val (.b64 0x3FF0000000000000#64) = .finite ⟨4503599627370496, -52⟩ := by decide
  rw [ratOf_of_finite h]; norm_num [Exact.toRat]
/-- The pattern below 2^-7. -/
theorem ratOf_below_flush : ratOf (.b32 0x3BFFFFFF#32) = some (16777215 / 2147483648) := by
  have h : val (.b32 0x3BFFFFFF#32) = .finite ⟨16777215, -31⟩ := by decide
  rw [ratOf_of_finite h]; norm_num [Exact.toRat]
theorem ratOf_flush_edge : ratOf (.b32 0x3C000000#32) = some (1 / 128) := by
  have h : val (.b32 0x3C000000#32) = .finite ⟨8388608, -30⟩ := by decide
  rw [ratOf_of_finite h]; norm_num [Exact.toRat]
theorem ratOf_240 : ratOf (.b32 0x43700000#32) = some 240 := by
  have h : val (.b32 0x43700000#32) = .finite ⟨15728640, -16⟩ := by decide
  rw [ratOf_of_finite h]; norm_num [Exact.toRat]
theorem ratOf_256 : ratOf (.b32 0x43800000#32) = some 256 := by
  have h : val (.b32 0x43800000#32) = .finite ⟨8388608, -15⟩ := by decide
  rw [ratOf_of_finite h]; norm_num [Exact.toRat]
theorem ratOf_neg_256 : ratOf (.b32 0xC3800000#32) = some (-256) := by
  have h : val (.b32 0xC3800000#32) = .finite ⟨-8388608, -15⟩ := by decide
  rw [ratOf_of_finite h]; norm_num [Exact.toRat]
theorem ratOf_zero : ratOf (.b32 0#32) = some 0 := ratOf_of_zero (n := false) (by decide)

/-! ## Witnesses of the statements' hypotheses -/

theorem witness_EveryOperationCompletesWithItsRule :
    isNaN (.b32 0x3F800000#32) = false ∧ isNaN (.b64 0x7FF8000000000000#64) = true := by decide
theorem witness_WrapperTransactionFrame : State.reset.via = .wrapper := by decide
theorem witness_OwnUnitTransactionFrame : onOwnUnit.via = .ownUnit := by decide
theorem witness_OutputDependsOnOperandsAlone :
    ∃ t t', exec (.add8 0x40#8 0x40#8) State.reset = .next t ∧ exec (.add8 0x40#8 0x40#8) onOwnUnit = .next t' ∧
      State.reset.fmt = onOwnUnit.fmt ∧ ∀ x, Instr.add8 0x40#8 0x40#8 = .enc8 x → isNaN x = false :=
  ⟨_, _, rfl, rfl, rfl, fun _ h => by cases h⟩
theorem witness_Enc8ZerosSubnormalsInfinities :
    nativeExp (.b32 0x80000000#32) = 0 ∧ nativeExp (.b32 0x007FFFFF#32) = 0 ∧
      nativeExp (.b32 0xFF800000#32) = nativeEmax .binary32 ∧ nativeFrac (.b32 0xFF800000#32) = 0 := by decide
theorem witness_Enc8NaNTakesAFreshDraw :
    nativeExp (.b32 0x7F800001#32) = nativeEmax .binary32 ∧ nativeFrac (.b32 0x7F800001#32) ≠ 0 := by decide
theorem witness_FrexpIsTheUniquePair :
    0 < (Exact.ofInt 3).num ∧ (Exact.ofInt 3).toRat = 3 / 4 * (2 : Rat) ^ (2 : Int) ∧
      (1 : Rat) / 2 ≤ 3 / 4 ∧ (3 : Rat) / 4 < 1 := by
  refine ⟨by decide, by norm_num, by norm_num, by norm_num⟩
theorem witness_MantissaFieldIsTheExactFloor : 0 < (Exact.mk 15 (-3)).num := by decide
theorem witness_UnderflowFlushesToZero :
    (Exact.ofInt (-1)).num ≠ 0 ∧ ratOf (.b32 0x3BFFFFFF#32) = some (16777215 / 2147483648) ∧
      |(16777215 / 2147483648 : Rat)| < (2 : Rat) ^ (-7 : Int) :=
  ⟨by decide, ratOf_below_flush, by norm_num⟩
theorem witness_OverflowSaturates :
    (Exact.ofInt 256).num ≠ 0 ∧ ratOf (.b32 0xC3800000#32) = some (-256) ∧
      (2 : Rat) ^ (8 : Int) ≤ |(-256 : Rat)| :=
  ⟨by decide, ratOf_neg_256, by norm_num⟩
theorem witness_Enc8ByMagnitude :
    (ratOf (.b32 0x3C000000#32) = some (1 / 128) ∧ (2 : Rat) ^ (-7 : Int) ≤ |(1 / 128 : Rat)| ∧
      |(1 / 128 : Rat)| < (2 : Rat) ^ (-7 + 1 : Int)) ∧
    (ratOf (.b32 0x3BFFFFFF#32) = some (16777215 / 2147483648) ∧
      (2 : Rat) ^ (-8 : Int) ≤ |(16777215 / 2147483648 : Rat)| ∧
      |(16777215 / 2147483648 : Rat)| < (2 : Rat) ^ (-8 + 1 : Int)) ∧
    (ratOf (.b32 0x43800000#32) = some 256 ∧ (2 : Rat) ^ (8 : Int) ≤ |(256 : Rat)| ∧
      |(256 : Rat)| < (2 : Rat) ^ (8 + 1 : Int)) ∧
    ratOf (.b32 0#32) = some 0 ∧ val (.b32 0xFF800000#32) = .infinity true ∧ val (.b32 0x7FC00000#32) = .nan :=
  ⟨⟨ratOf_flush_edge, by norm_num, by norm_num⟩, ⟨ratOf_below_flush, by norm_num, by norm_num⟩,
    ⟨ratOf_256, by norm_num, by norm_num⟩, ratOf_zero, by decide, by decide⟩
/-- The lowest band (b = 1, f = 0 at 2^-7) and the highest (b = 15, f = 7 at 240). -/
theorem witness_Enc8ByMagnitude_bands :
    (ratOf (.b32 0x3C000000#32) = some (1 / 128) ∧ (8 + (0 : Nat) : Rat) * (2 : Rat) ^ (((1 : Nat) : Int) - 11) ≤ |(1 / 128 : Rat)| ∧
      |(1 / 128 : Rat)| < (9 + (0 : Nat) : Rat) * (2 : Rat) ^ (((1 : Nat) : Int) - 11)) ∧
    (ratOf (.b32 0x43700000#32) = some 240 ∧ (8 + (7 : Nat) : Rat) * (2 : Rat) ^ (((15 : Nat) : Int) - 11) ≤ |(240 : Rat)| ∧
      |(240 : Rat)| < (9 + (7 : Nat) : Rat) * (2 : Rat) ^ (((15 : Nat) : Int) - 11)) :=
  ⟨⟨ratOf_flush_edge, by norm_num, by norm_num⟩, ⟨ratOf_240, by norm_num, by norm_num⟩⟩
theorem witness_RoundTripDoublesTheTruncation :
    (ratOf (.b32 0x3BFFFFFF#32) = some (16777215 / 2147483648) ∧
      |(16777215 / 2147483648 : Rat)| < (2 : Rat) ^ (-7 : Int)) ∧
    (ratOf (.b64 0xBFF0000000000000#64) = some (-1) ∧ (2 : Rat) ^ (-7 : Int) ≤ |(-1 : Rat)| ∧
      |(-1 : Rat)| < (2 : Rat) ^ (8 : Int) ∧ (2 : Rat) ^ (0 : Int) ≤ |(-1 : Rat)| ∧
      |(-1 : Rat)| < (2 : Rat) ^ (0 + 1 : Int)) ∧
    (ratOf (.b32 0x43800000#32) = some 256 ∧ (2 : Rat) ^ (8 : Int) ≤ |(256 : Rat)|) :=
  ⟨⟨ratOf_below_flush, by norm_num⟩,
    ⟨ratOf_neg_one_binary64, by norm_num, by norm_num, by norm_num, by norm_num⟩, ⟨ratOf_256, by norm_num⟩⟩
theorem witness_Enc8StepsDownOnlyAt256 :
    (ratOf (.b32 0x43700000#32) = some 240 ∧ 240 ≤ |(240 : Rat)| ∧ |(240 : Rat)| < 256) ∧
    (ratOf (.b32 0xC3800000#32) = some (-256) ∧ 256 ≤ |(-256 : Rat)|) ∧
    (ratOf (.b32 0x3F800000#32) = some 1 ∧ ((1 : Rat) < 0 ↔ (240 : Rat) < 0) ∧ |(1 : Rat)| ≤ |(240 : Rat)|) :=
  ⟨⟨ratOf_240, by norm_num, by norm_num⟩, ⟨ratOf_neg_256, by norm_num⟩, ⟨ratOf_one, by norm_num, by norm_num⟩⟩
theorem witness_Enc8KeepsTheSignOfANonzeroResult :
    (ratOf (.b32 0xC3800000#32) = some (-256) ∧ enc Config.encodeExpAdjust (.b32 0xC3800000#32) 0x00#8 ≠ 0x00#8) ∧
    val (.b32 0xFF800000#32) = .infinity true ∧ isNaN (.b32 0#32) = false ∧
    (ratOf (.b32 0x3BFFFFFF#32) = some (16777215 / 2147483648) ∧
      |(16777215 / 2147483648 : Rat)| < (2 : Rat) ^ (-7 : Int)) :=
  ⟨⟨ratOf_neg_256, by decide⟩, by decide, by decide, ⟨ratOf_below_flush, by norm_num⟩⟩
theorem witness_Enc8OutputSet : isNaN (.b32 0#32) = false ∧ 1 ≤ expOf 0x08#8 ∧ 1 ≤ expOf 0xFF#8 := by decide
theorem witness_Enc8DependsOnTheValueAlone :
    ratOf (.b32 0x3F800000#32) = some 1 ∧ ratOf (.b64 0x3FF0000000000000#64) = some 1 :=
  ⟨ratOf_one, ratOf_one_binary64⟩
theorem witness_NativePatternValues :
    (nativeExp (.b32 0x7F800000#32) = nativeEmax .binary32 ∧ nativeFrac (.b32 0x7F800000#32) = 0) ∧
    (nativeExp (.b64 0x7FF8000000000000#64) = nativeEmax .binary64 ∧ nativeFrac (.b64 0x7FF8000000000000#64) ≠ 0) ∧
    (nativeExp (.b32 0x80000000#32) = 0 ∧ nativeFrac (.b32 0x80000000#32) = 0) ∧
    (nativeExp (.b32 0x00000001#32) = 0 ∧ nativeFrac (.b32 0x00000001#32) ≠ 0) ∧
    (nativeExp (.b32 0x00800000#32) ≠ 0 ∧ nativeExp (.b32 0x00800000#32) ≠ nativeEmax .binary32) := by decide
theorem witness_BitsNativeInvertsTheValue :
    (Exact.mk 0 5).num = 0 ∧ nativeExp (.b32 0x3F800000#32) ≠ 0 ∧
      nativeExp (.b32 0x3F800000#32) ≠ nativeEmax .binary32 ∧
      ratOf (.b32 0x3F800000#32) = some (Exact.ofInt 1).toRat :=
  ⟨rfl, by decide, by decide, by rw [ratOf_one]; simp⟩
theorem witness_PackedByteFields : (15 : Nat) < 16 ∧ (7 : Nat) < 8 ∧ (packByte true 15 7) = 0xFF#8 := by decide
theorem witness_Dec8ClosedForm :
    (State.resetAt .binary32).fmt = .binary32 ∧ (State.resetAt .binary64).fmt = .binary64 := by decide
theorem witness_Dec8Value : (0x80#8 : Byte) ≠ 0x00#8 := by decide
theorem witness_Dec8Range : nativeExp (dec .binary64 0x00#8) = 0 ∧ (0x80#8 : Byte) ≠ 0x00#8 := by decide
theorem witness_Dec8Injective :
    dec .binary32 0x40#8 = dec .binary32 0x40#8 ∧ ratOfByte 0x40#8 = ratOfByte 0x40#8 := ⟨rfl, rfl⟩
theorem witness_ZeroResults :
    (0xC0#8 : Byte) ≠ 0x00#8 ∧ (0xC0#8 : Byte) ≠ 0x80#8 ∧ 1 ≤ (0x07#8 : Byte).toNat ∧ (0x07#8 : Byte).toNat ≤ 7 := by
  decide
/-- 0x70 decodes to 128 and 0x40 to 2, so 0x70 with 0x70 sums to 256 and 0x70 with 0x40 multiplies to 256. -/
theorem witness_ArithmeticSaturates :
    (2 : Rat) ^ (8 : Int) ≤ |ratOfByte 0x70#8 + ratOfByte 0x70#8| ∧
    (2 : Rat) ^ (8 : Int) ≤ |ratOfByte 0x70#8 * ratOfByte 0x40#8| ∧
    add8 Config.encodeExpAdjust 0x68#8 0x68#8 = packByte false 15 0 ∧
    mul8 Config.encodeExpAdjust 0xE8#8 0x40#8 = packByte true 15 0 := by
  have h : decR 0x70#8 = ⟨8, 4⟩ := by decide
  have h2 : decR 0x40#8 = ⟨8, -2⟩ := by decide
  refine ⟨?_, ?_, by decide, by decide⟩
  · norm_num [ratOfByte, h, Exact.toRat]
  · norm_num [ratOfByte, h, h2, Exact.toRat]
theorem witness_ArithmeticSigns :
    add8 Config.encodeExpAdjust 0xFF#8 0x77#8 ≠ 0x00#8 ∧ mul8 Config.encodeExpAdjust 0xC4#8 0x44#8 ≠ 0x00#8 := by decide
theorem witness_DecodeInvertsEncode : (Instr.enc8 (.b64 0x7FF8000000000000#64)).wf .binary64 = true := by decide
theorem witness_EveryWordDecodes : (Native.b64 0x3FF0000000000000#64).fmt = .binary64 := by decide

/-- A line on the adder, with the state it leaves. -/
def addLine : Line := .adder 2 (.lit 0x48#8) (.lit 0x4C#8)

theorem witness_StepRunsTheDecodedInstruction :
    (loaded [] [addLine]).program = addLine :: [] ∧
      ((loaded [] [addLine]).present addLine).decodeAt addLine.device = .ok (.add8 0x48#8 0x4C#8) := ⟨rfl, rfl⟩
theorem witness_OwnUnitLinesDecode : (Native.b32 0x7FC00000#32).fmt = State.reset.fmt := by decide
theorem witness_EndedRunStays : State.reset.program = [] := rfl
theorem witness_StepWritesTheLinesTemporary :
    (loaded [(1, .byte 0x40#8)] [addLine]).program = addLine :: [] ∧
      ∃ t, step (loaded [(1, .byte 0x40#8)] [addLine]) = .next t ∧ (1 : Nat) ≠ addLine.dest :=
  ⟨rfl, _, rfl, by decide⟩
/-- A DEC8 line: its output is native. -/
def decLine : Line := .wrapper 3 (.driven 0b01#2) (.lit 0x5A#8) .undriven .undriven

theorem witness_DependentTransactionSeesTheOutput :
    (loaded [] [addLine]).NativesFit ∧
    (∃ t, step (loaded [] [addLine]) = .next t ∧ addLine.op = some .add8 ∧ t.outputOf .add8 = some (.byte 0x5A#8)) ∧
    ∃ t, step (loaded [] [decLine]) = .next t ∧ decLine.op = some .dec8 ∧
      t.outputOf .dec8 = some (.native (.b32 0x41A00000#32)) := by
  refine ⟨?_, ⟨_, rfl, rfl, by decide⟩, ⟨_, rfl, rfl, by decide⟩⟩
  refine ⟨?_, ?_, ?_, ?_, ?_⟩ <;>
    simp [loaded, State.reset, State.resetAt, State.load, undriven, Temps.read]
theorem witness_UnreadInputsHaveNoEffect :
    (∃ u, step { State.reset with program := [.wrapper 0 (.driven 0b01#2) (.lit 0xC5#8) .undriven .changing] } = .next u) ∧
    (∃ u, step { State.reset with program := [.wrapper 0 (.driven 0b00#2) .undriven .changing (.lit (.b32 0))] } = .next u) ∧
    (∃ u, step { State.reset with program := [.wrapper 0 (.driven 0b11#2) (.lit 0x08#8) (.lit 0x78#8) .undriven] } = .next u) ∧
    Op.ofBits 0b00#2 = .enc8 ∧ Op.ofBits 0b01#2 = .dec8 ∧ Op.ofBits 0b10#2 = .add8 ∧ Op.ofBits 0b11#2 = .mul8 :=
  ⟨⟨_, rfl⟩, ⟨_, rfl⟩, ⟨_, rfl⟩, by decide, by decide, by decide, by decide⟩
/-- The line `l`, loaded alone, is the next one, and its ports do not decode, for the reason `r`. -/
def Undecoded (l : Line) (r : Reject) : Prop :=
  (State.reset.load [l]).program = l :: [] ∧ ((State.reset.load [l]).present l).decodeAt l.device = .error r

/-- The first clause, on each unit of its own and each port of it; with both operands unknown port `a` is named. -/
theorem witness_UnknownInputIsRefused :
    Undecoded (.encoder 1 .undriven) ⟨.x, .undriven⟩ ∧ Undecoded (.decoder 1 (.temp 0)) ⟨.p, .unwritten⟩ ∧
    Undecoded (.adder 1 .changing .undriven) ⟨.a, .changing⟩ ∧
    Undecoded (.adder 1 (.lit 0x40#8) .changing) ⟨.b, .changing⟩ ∧
    Undecoded (.multiplier 1 .undriven (.lit 0x40#8)) ⟨.a, .undriven⟩ ∧
    Undecoded (.multiplier 1 (.lit 0x40#8) .undriven) ⟨.b, .undriven⟩ :=
  ⟨⟨rfl, rfl⟩, ⟨rfl, rfl⟩, ⟨rfl, rfl⟩, ⟨rfl, rfl⟩, ⟨rfl, rfl⟩, ⟨rfl, rfl⟩⟩
/-- The wrapper's clauses: an unknown select, then `x`, `a` (with `b` unknown too) and `b` at the selects that read them. -/
theorem witness_UnknownInputIsRefused_wrapper :
    Undecoded (.wrapper 0 (.unknown .undriven) .undriven .undriven .undriven) ⟨.op, .undriven⟩ ∧
    (Undecoded (.wrapper 0 (.driven 0b00#2) (.lit 0) (.lit 0) .undriven) ⟨.x, .undriven⟩ ∧ Op.ofBits 0b00#2 = .enc8 ∧
      resolveNative State.reset.fmt State.reset.temps .undriven = .unknown .undriven) ∧
    (Undecoded (.wrapper 0 (.driven 0b11#2) .changing .undriven .undriven) ⟨.a, .changing⟩ ∧ Op.ofBits 0b11#2 ≠ .enc8 ∧
      resolveByte State.reset.temps .changing = .unknown .changing) ∧
    (Undecoded (.wrapper 0 (.driven 0b10#2) (.lit 0x40#8) .undriven .undriven) ⟨.b, .undriven⟩ ∧
      Op.ofBits 0b10#2 = .add8 ∧ resolveByte State.reset.temps (.lit 0x40#8) = .driven 0x40#8 ∧
      resolveByte State.reset.temps .undriven = .unknown .undriven) :=
  ⟨⟨rfl, rfl⟩, ⟨⟨rfl, rfl⟩, by decide, rfl⟩, ⟨⟨rfl, rfl⟩, by decide, rfl⟩, ⟨⟨rfl, rfl⟩, by decide, rfl, rfl⟩⟩
theorem witness_OwnUnitAgreesWithWrapper :
    (∃ u, step { State.reset with program := [.encoder 0 (.lit (.b32 0x7FC00000#32))] } = .next u) ∧
    (∃ u, step { State.reset with program := [.decoder 0 (.lit 0xC5#8)] } = .next u) ∧
    (∃ u, step { State.reset with program := [.adder 0 (.lit 0x40#8) (.lit 0xC0#8)] } = .next u) ∧
    ∃ u, step { State.reset with program := [.multiplier 0 (.lit 0x40#8) (.lit 0xC0#8)] } = .next u :=
  ⟨⟨_, rfl⟩, ⟨_, rfl⟩, ⟨_, rfl⟩, ⟨_, rfl⟩⟩
theorem witness_IndependentTransactionsCommute :
    State.reset.temps.wf = true ∧ addLine.device ≠ .wrapper ∧ (Line.decoder 5 (.lit 0xC5#8)).device ≠ .wrapper ∧
    addLine.device ≠ (Line.decoder 5 (.lit 0xC5#8)).device ∧ addLine.dest ≠ (Line.decoder 5 (.lit 0xC5#8)).dest ∧
    (Line.decoder 5 (.lit 0xC5#8)).dest ∉ lineReads addLine ∧ addLine.dest ∉ lineReads (.decoder 5 (.lit 0xC5#8)) ∧
    ∃ u, Sys2Proof.core.run 2 (State.reset.load [addLine, .decoder 5 (.lit 0xC5#8)]) = .next u := by
  refine ⟨by decide, by decide, by decide, by decide, by decide, by decide, by decide, _, rfl⟩
/-- A state with a value on an output and in a temporary, and a line to run: for the invariants every step keeps. -/
def busy : State :=
  { loaded [(1, .byte 0x40#8)] [addLine] with multiplier := ⟨.driven 0x40#8, .driven 0x40#8, some 0x50#8⟩ }

theorem witness_invariants :
    busy.OutputsFollow ∧ busy.NativesFit ∧ busy.temps.wf = true ∧ ∃ t, step busy = .next t := by
  refine ⟨⟨?_, ?_, ?_, ?_, ?_, ?_⟩, ⟨?_, ?_, ?_, ?_, ?_⟩, by decide, _, rfl⟩
  · intro v h; simp [busy, loaded, State.reset, State.resetAt, State.load] at h
  · intro v h; simp [busy, loaded, State.reset, State.resetAt, State.load] at h
  · intro v h; simp [busy, loaded, State.reset, State.resetAt, State.load] at h
  · intro v h
    simp only [busy, Option.some.injEq] at h
    subst h
    exact ⟨_, _, rfl, rfl, by decide⟩
  · intro v h; simp [busy, loaded, State.reset, State.resetAt, State.load] at h
  · intro v h; simp [busy, loaded, State.reset, State.resetAt, State.load] at h
  · intro v h; simp [busy, loaded, State.reset, State.resetAt, State.load, undriven] at h
  · intro v h; simp [busy, loaded, State.reset, State.resetAt, State.load, undriven] at h
  · intro v h; simp [busy, loaded, State.reset, State.resetAt, State.load] at h
  · intro v h; simp [busy, loaded, State.reset, State.resetAt, State.load] at h
  · intro t v h
    simp only [busy, loaded, Temps.read] at h
    split at h
    · cases h; trivial
    · cases h

/-- P5, whose first line draws: its lines read only temporaries written before. -/
theorem witness_ReadyPrograms :
    (State.reset.load [.encoder 0 (.lit (.b32 0x7FC00000#32)), .decoder 2 (.temp 0)]).Ready :=
  ⟨by decide, by simp [State.reset, State.resetAt, State.load, Temps.read]⟩

end Sys2Proof.Tests
end

/-!
PROOFS. The state, its ports and its steps: what an execution drives, what it leaves alone, and the invariants every
step keeps.
-/
namespace Sys2Proof.Machine

/-! ### What an instruction gives and takes -/

/-- R109, R134, R150, R152: what an instruction drives, as a function of its operands, the format and the draw `d`. -/
def resultOf (fmt : NativeFmt) (d : Byte) : Instr → Result
  | .enc8 x => .byte (enc Config.encodeExpAdjust x d)
  | .dec8 a => .native (dec fmt a)
  | .add8 a b => .byte (add8 Config.encodeExpAdjust a b)
  | .mul8 a b => .byte (mul8 Config.encodeExpAdjust a b)

/-- R111: how many draws an instruction uses up. -/
def drawsTaken : Instr → Nat
  | .enc8 x => if isNaN x then 1 else 0
  | .dec8 _ => 0
  | .add8 _ _ => 0
  | .mul8 _ _ => 0

theorem drawsTaken_le_one (i : Instr) : drawsTaken i ≤ 1 := by
  cases i with
  | enc8 x => simp only [drawsTaken]; split <;> omega
  | dec8 a => exact Nat.zero_le 1
  | add8 a b => exact Nat.zero_le 1
  | mul8 a b => exact Nat.zero_le 1

/-- R109: only ENC8 of a NaN looks at the draw. -/
theorem resultOf_draw {i : Instr} (h : ∀ x, i = .enc8 x → isNaN x = false) (fmt : NativeFmt) (d d' : Byte) :
    resultOf fmt d i = resultOf fmt d' i := by
  cases i with
  | enc8 x => exact congrArg Result.byte (enc_draw _ x (h x rfl) d d')
  | dec8 a => rfl
  | add8 a b => rfl
  | mul8 a b => rfl

/-- The byte ENC8 drives is one its input encodes to, whatever the draw. -/
theorem encodes_enc (x : Native) (d : Byte) : Encodes x (enc Config.encodeExpAdjust x d) :=
  fun hx d' => enc_draw _ x hx d d'

/-! ### Execution -/

/-- The model's count of draws moved on by `n` (log 4). -/
@[simps] def State.takeDraws (s : State) (n : Nat) : State := { s with draws := s.draws + n }

theorem State.takeDraws_one (s : State) : s.takeDraws 1 = s.takeDraw := rfl

theorem State.takeDraws_zero (s : State) : s.takeDraws 0 = s := rfl

theorem exec_enc8 (x : Native) (s : State) : exec (.enc8 x) s =
    .next ((s.takeDraws (drawsTaken (.enc8 x))).driveEncoder
      (enc Config.encodeExpAdjust x s.nextDraw)) := by
  cases hx : isNaN x <;> simp [exec, execEnc8, drawsTaken, hx, State.takeDraws_one, State.takeDraws_zero]

theorem exec_dec8 (a : Byte) (s : State) : exec (.dec8 a) s = .next (s.driveDecoder (dec s.fmt a)) := rfl

theorem exec_add8 (a b : Byte) (s : State) :
    exec (.add8 a b) s = .next (s.driveAdder (add8 Config.encodeExpAdjust a b)) := rfl

theorem exec_mul8 (a b : Byte) (s : State) :
    exec (.mul8 a b) s = .next (s.driveMultiplier (mul8 Config.encodeExpAdjust a b)) := rfl

/-- R200: every instruction completes in every state. -/
theorem exec_total (i : Instr) (s : State) : ∃ t, exec i s = .next t := by
  rcases exec_cases i s with ⟨x, -, h⟩ | ⟨a, -, h⟩ | ⟨a, b, -, h⟩ | ⟨a, b, -, h⟩ <;> exact ⟨_, h⟩

/-- R30: what an execution leaves on the operation's output port. -/
theorem exec_output {i : Instr} {s t : State} (h : exec i s = .next t) :
    t.outputOf i.op = some (resultOf s.fmt s.nextDraw i) := by
  cases i with
  | enc8 x => rw [exec_enc8] at h; cases h; exact State.outputOf_driveEncoder _ _
  | dec8 a => rw [exec_dec8] at h; cases h; exact State.outputOf_driveDecoder _ _
  | add8 a b => rw [exec_add8] at h; cases h; exact State.outputOf_driveAdder _ _
  | mul8 a b => rw [exec_mul8] at h; cases h; exact State.outputOf_driveMultiplier _ _

theorem exec_draws {i : Instr} {s t : State} (h : exec i s = .next t) : t.draws = s.draws + drawsTaken i := by
  cases i with
  | enc8 x => rw [exec_enc8] at h; cases h; simp
  | dec8 a => rw [exec_dec8] at h; cases h; simp [drawsTaken]
  | add8 a b => rw [exec_add8] at h; cases h; simp [drawsTaken]
  | mul8 a b => rw [exec_mul8] at h; cases h; simp [drawsTaken]

/-- R29: a result on the wrapper's output of its kind, the other output given no value. -/
def State.driveWrapper (s : State) : Result → State
  | .byte v => s.driveR8 v
  | .native v => s.driveY v

/-- R29: on the wrapper every instruction drives its result on the output of its kind. -/
theorem exec_onWrapper (i : Instr) {s : State} (h : s.via = .wrapper) : exec i s =
    .next ((s.takeDraws (drawsTaken i)).driveWrapper (resultOf s.fmt s.nextDraw i)) := by
  cases i with
  | enc8 x => exact (exec_enc8 x s).trans (congrArg Host.Outcome.next (State.driveEncoder_onWrapper _ _ h))
  | dec8 a => exact (exec_dec8 a s).trans (congrArg Host.Outcome.next (State.driveDecoder_onWrapper _ _ h))
  | add8 a b => exact (exec_add8 a b s).trans (congrArg Host.Outcome.next (State.driveAdder_onWrapper _ _ h))
  | mul8 a b => exact (exec_mul8 a b s).trans (congrArg Host.Outcome.next (State.driveMultiplier_onWrapper _ _ h))

/-! ### One step of a line -/

/-- A step of a program that has a next line: its ports decode, the instruction runs, its output is sampled. -/
theorem step_cons_iff {s u : State} {l : Line} {rest : List Line} (hp : s.program = l :: rest) :
    step s = .next u ↔ ∃ i t, (s.present l).decodeAt l.device = .ok i ∧ exec i (s.present l) = .next t ∧
      u = (t.sample i.op l.dest).advance := by
  rcases step_cases s with ⟨hnil, -⟩ | ⟨l', rest', r, hp', hd, hs⟩ | ⟨l', rest', i, t, hp', hd, hx, hs⟩
  · simp [hnil] at hp
  · obtain ⟨rfl, rfl⟩ : l' = l ∧ rest' = rest := by simpa [hp'] using hp
    simp [hs, hd]
  · obtain ⟨rfl, rfl⟩ : l' = l ∧ rest' = rest := by simpa [hp'] using hp
    simp [hs, hd, hx, eq_comm]

/-- What is kept by a presented and decoded line's execution and retirement is kept by every step. -/
theorem step_keeps {I : State → Prop}
    (hrun : ∀ s l i t, I s → (s.present l).decodeAt l.device = .ok i → exec i (s.present l) = .next t →
      I (t.sample i.op l.dest).advance) {s t : State} (hI : I s) (h : step s = .next t) : I t := by
  rcases step_cases s with ⟨-, hs⟩ | ⟨l, rest, r, -, -, hs⟩ | ⟨l, rest, i, p, -, hd, hx, hs⟩ <;>
    rw [hs] at h <;> cases h
  · exact hI
  · exact hrun s l i p hI hd hx

/-- R73, R236: after a line's execution its temporary holds the instruction's result. -/
theorem retired_temps {s t : State} {l : Line} {i : Instr} (hx : exec i (s.present l) = .next t) :
    (t.sample i.op l.dest).advance.temps = s.temps.write l.dest (resultOf s.fmt s.nextDraw i) := by
  obtain ⟨-, -, htemps, -, -⟩ := exec_host_side hx
  rw [State.advance_temps, State.sample_temps_of_output _ _ _ _ (exec_output hx), htemps]
  simp [State.nextDraw]

theorem retired_draws {s t : State} {l : Line} {i : Instr} (hx : exec i (s.present l) = .next t) :
    (t.sample i.op l.dest).advance.draws = s.draws + drawsTaken i := by
  simp [exec_draws hx]

/-- The temporaries and the draws after a step depend on the instruction its line decodes to and on its destination
alone, not on the device. -/
theorem step_agrees_of_decodeAt {s u : State} {l l' : Line} {rest rest' : List Line}
    (h : step { s with program := l :: rest } = .next u) (hdest : l'.dest = l.dest)
    (hdec : ∀ i, (({ s with program := l :: rest } : State).present l).decodeAt l.device = .ok i →
      (({ s with program := l' :: rest' } : State).present l').decodeAt l'.device = .ok i) :
    ∃ u', step { s with program := l' :: rest' } = .next u' ∧ u'.temps = u.temps ∧ u'.draws = u.draws := by
  obtain ⟨i, t, hd, hx, rfl⟩ := (step_cons_iff rfl).mp h
  obtain ⟨t', hx'⟩ := exec_total i (({ s with program := l' :: rest' } : State).present l')
  refine ⟨_, (step_cons_iff rfl).mpr ⟨i, t', hdec i hd, hx', rfl⟩, ?_, ?_⟩
  · rw [retired_temps hx, retired_temps hx', hdest]; rfl
  · rw [retired_draws hx, retired_draws hx']

/-! ### Decoding what a line presents -/

/-- R28: a pattern of the port's width stands on it. -/
theorem onNativePort_of_fmt {fmt : NativeFmt} {v : Native} (h : v.fmt = fmt) : onNativePort fmt v = .driven v :=
  if_pos h

/-- R28: what stands on a native port has the port's width. -/
theorem fmt_of_onNativePort {fmt : NativeFmt} {v w : Native} (h : onNativePort fmt v = .driven w) : w.fmt = fmt := by
  unfold onNativePort at h
  split at h
  · cases h; assumption
  · cases h

theorem fmt_of_resolveNative {fmt : NativeFmt} {ts : Temps} {x : Src Native} {w : Native}
    (h : resolveNative fmt ts x = .driven w) : w.fmt = fmt := by
  cases x with
  | lit v => exact fmt_of_onNativePort h
  | undriven => cases h
  | changing => cases h
  | temp t =>
    simp only [resolveNative] at h
    split at h
    · exact fmt_of_onNativePort h
    · cases h
    · cases h

/-- R29: the wrapper's decoding looks at the ports the selected operation reads alone. -/
theorem decodePorts_unread {o : OpBits} {a b a' b' : Input Byte} {x x' : Input Native}
    (hx : Op.ofBits o = .enc8 → x = x') (ha : Op.ofBits o = .dec8 → a = a')
    (hab : Op.ofBits o = .add8 ∨ Op.ofBits o = .mul8 → a = a' ∧ b = b') :
    decodePorts (.driven o) a' b' x' = decodePorts (.driven o) a b x := by
  cases ho : Op.ofBits o with
  | enc8 => simp only [decodePorts, ho, hx ho]
  | dec8 => simp only [decodePorts, ho, ha ho]
  | add8 => obtain ⟨rfl, rfl⟩ := hab (.inl ho); simp only [decodePorts, ho]
  | mul8 => obtain ⟨rfl, rfl⟩ := hab (.inr ho); simp only [decodePorts, ho]

/-- R28, R29: the operands of an instruction stand on the ports of the device the transaction is on, on the wrapper
under the operation's select. -/
def State.Presents (s : State) : Instr → Prop
  | .enc8 x =>
    (s.via = .wrapper ∧ s.wrapper.op = .driven Op.enc8.bits ∧ s.wrapper.x = .driven x) ∨
    (s.via = .ownUnit ∧ s.encoder.x = .driven x)
  | .dec8 a =>
    (s.via = .wrapper ∧ s.wrapper.op = .driven Op.dec8.bits ∧ s.wrapper.a = .driven a) ∨
    (s.via = .ownUnit ∧ s.decoder.p = .driven a)
  | .add8 a b =>
    (s.via = .wrapper ∧ s.wrapper.op = .driven Op.add8.bits ∧ s.wrapper.a = .driven a ∧ s.wrapper.b = .driven b) ∨
    (s.via = .ownUnit ∧ s.adder.a = .driven a ∧ s.adder.b = .driven b)
  | .mul8 a b =>
    (s.via = .wrapper ∧ s.wrapper.op = .driven Op.mul8.bits ∧ s.wrapper.a = .driven a ∧ s.wrapper.b = .driven b) ∨
    (s.via = .ownUnit ∧ s.multiplier.a = .driven a ∧ s.multiplier.b = .driven b)

/-- Reading two ports in turn gives an instruction only when both are driven. -/
theorem read_two_eq_ok {a b : Input Byte} {f : Byte → Byte → Instr} {i : Instr} :
    ((a.read .a).bind fun va => (b.read .b).map (f va)) = .ok i ↔
      ∃ va vb, a = .driven va ∧ b = .driven vb ∧ f va vb = i := by
  cases a <;> cases b <;> simp [Except.bind, Except.map]

/-- Reading one port gives an instruction only when it is driven. -/
theorem read_one_eq_ok {α : Type} {a : Input α} {port : PortName} {f : α → Instr} {i : Instr} :
    (a.read port).map f = .ok i ↔ ∃ v, a = .driven v ∧ f v = i := by
  cases a <;> simp [Except.map]

theorem presents_of_decodeAt {s : State} {l : Line} {i : Instr}
    (h : (s.present l).decodeAt l.device = .ok i) : (s.present l).Presents i := by
  cases l with
  | wrapper t op a b x =>
    rcases decodePorts_eq_ok.mp h with ⟨ho, v, hv, rfl⟩ | ⟨ho, v, hv, rfl⟩ | ⟨ho, v, w, hv, hw, rfl⟩ |
      ⟨ho, v, w, hv, hw, rfl⟩
    · exact .inl ⟨rfl, ho, hv⟩
    · exact .inl ⟨rfl, ho, hv⟩
    · exact .inl ⟨rfl, ho, hv, hw⟩
    · exact .inl ⟨rfl, ho, hv, hw⟩
  | encoder t x => obtain ⟨v, hv, rfl⟩ := read_one_eq_ok.mp h; exact .inr ⟨rfl, hv⟩
  | decoder t p => obtain ⟨v, hv, rfl⟩ := read_one_eq_ok.mp h; exact .inr ⟨rfl, hv⟩
  | adder t a b => obtain ⟨v, w, hv, hw, rfl⟩ := read_two_eq_ok.mp h; exact .inr ⟨rfl, hv, hw⟩
  | multiplier t a b => obtain ⟨v, w, hv, hw, rfl⟩ := read_two_eq_ok.mp h; exact .inr ⟨rfl, hv, hw⟩

/-! ### Outputs follow inputs -/

/-- R31: presenting a line clears the outputs of its device and touches no other. -/
theorem State.OutputsFollow.present {s : State} (h : s.OutputsFollow) (l : Line) : (s.present l).OutputsFollow := by
  obtain ⟨hE, hD, hA, hM, hR, hY⟩ := h
  cases l with
  | wrapper t op a b x => exact ⟨hE, hD, hA, hM, fun v e => (nomatch e), fun v e => (nomatch e)⟩
  | encoder t x => exact ⟨fun v e => (nomatch e), hD, hA, hM, hR, hY⟩
  | decoder t p => exact ⟨hE, fun v e => (nomatch e), hA, hM, hR, hY⟩
  | adder t a b => exact ⟨hE, hD, fun v e => (nomatch e), hM, hR, hY⟩
  | multiplier t a b => exact ⟨hE, hD, hA, fun v e => (nomatch e), hR, hY⟩

/-- R43: the host's sampling and its going on touch no port. -/
theorem State.outputsFollow_retired (s : State) (o : Op) (t : Nat) :
    (s.sample o t).advance.OutputsFollow ↔ s.OutputsFollow := by
  simp [State.OutputsFollow]

/-- A byte that follows the wrapper's inputs may be driven on `r8`. -/
theorem State.OutputsFollow.driveR8 {s : State} {v : Byte} (h : s.OutputsFollow)
    (hv : ({ s.wrapper with r8 := some v, y := none } : WrapperPorts).R8Follows) : (s.driveR8 v).OutputsFollow := by
  obtain ⟨hE, hD, hA, hM, -, -⟩ := h
  exact ⟨hE, hD, hA, hM, hv, fun v e => (nomatch e)⟩

theorem State.OutputsFollow.driveEncoder {s : State} {x : Native} {v : Byte} (h : s.OutputsFollow)
    (hp : s.Presents (.enc8 x)) (hv : Encodes x v) : (s.driveEncoder v).OutputsFollow := by
  rcases hp with ⟨hvia, ho, hx⟩ | ⟨hvia, hx⟩
  · rw [State.driveEncoder_onWrapper _ _ hvia]
    refine h.driveR8 ?_
    rintro _ ⟨⟩
    exact .inl ⟨ho, x, hx, hv⟩
  · rw [State.driveEncoder_onOwnUnit _ _ hvia]
    obtain ⟨-, hD, hA, hM, hR, hY⟩ := h
    refine ⟨?_, hD, hA, hM, hR, hY⟩
    rintro _ ⟨⟩
    exact ⟨x, hx, hv⟩

theorem State.OutputsFollow.driveDecoder {s : State} {a : Byte} (h : s.OutputsFollow)
    (hp : s.Presents (.dec8 a)) : (s.driveDecoder (dec s.fmt a)).OutputsFollow := by
  obtain ⟨hE, hD, hA, hM, hR, hY⟩ := h
  rcases hp with ⟨hvia, ho, ha⟩ | ⟨hvia, ha⟩
  · rw [State.driveDecoder_onWrapper _ _ hvia]
    refine ⟨hE, hD, hA, hM, fun v e => (nomatch e), ?_⟩
    rintro _ ⟨⟩
    exact ⟨ho, a, ha, rfl⟩
  · rw [State.driveDecoder_onOwnUnit _ _ hvia]
    refine ⟨hE, ?_, hA, hM, hR, hY⟩
    rintro _ ⟨⟩
    exact ⟨a, ha, rfl⟩

theorem State.OutputsFollow.driveAdder {s : State} {a b : Byte} (h : s.OutputsFollow)
    (hp : s.Presents (.add8 a b)) : (s.driveAdder (add8 Config.encodeExpAdjust a b)).OutputsFollow := by
  rcases hp with ⟨hvia, ho, ha, hb⟩ | ⟨hvia, ha, hb⟩
  · rw [State.driveAdder_onWrapper _ _ hvia]
    refine h.driveR8 ?_
    rintro _ ⟨⟩
    exact .inr (.inl ⟨ho, a, b, ha, hb, rfl⟩)
  · rw [State.driveAdder_onOwnUnit _ _ hvia]
    obtain ⟨hE, hD, -, hM, hR, hY⟩ := h
    refine ⟨hE, hD, ?_, hM, hR, hY⟩
    rintro _ ⟨⟩
    exact ⟨a, b, ha, hb, rfl⟩

theorem State.OutputsFollow.driveMultiplier {s : State} {a b : Byte} (h : s.OutputsFollow)
    (hp : s.Presents (.mul8 a b)) : (s.driveMultiplier (mul8 Config.encodeExpAdjust a b)).OutputsFollow := by
  rcases hp with ⟨hvia, ho, ha, hb⟩ | ⟨hvia, ha, hb⟩
  · rw [State.driveMultiplier_onWrapper _ _ hvia]
    refine h.driveR8 ?_
    rintro _ ⟨⟩
    exact .inr (.inr ⟨ho, a, b, ha, hb, rfl⟩)
  · rw [State.driveMultiplier_onOwnUnit _ _ hvia]
    obtain ⟨hE, hD, hA, -, hR, hY⟩ := h
    refine ⟨hE, hD, hA, ?_, hR, hY⟩
    rintro _ ⟨⟩
    exact ⟨a, b, ha, hb, rfl⟩

/-- R20: an instruction run on the operands that stand on its ports leaves every output following its inputs. -/
theorem State.OutputsFollow.exec {s t : State} {i : Instr} (h : s.OutputsFollow) (hp : s.Presents i)
    (hx : exec i s = .next t) : t.OutputsFollow := by
  cases i with
  | enc8 x =>
    have hn : (s.takeDraws (drawsTaken (.enc8 x))).OutputsFollow := h
    rw [exec_enc8] at hx; cases hx; exact hn.driveEncoder hp (encodes_enc x _)
  | dec8 a => rw [exec_dec8] at hx; cases hx; exact h.driveDecoder hp
  | add8 a b => rw [exec_add8] at hx; cases hx; exact h.driveAdder hp
  | mul8 a b => rw [exec_mul8] at hx; cases hx; exact h.driveMultiplier hp

/-! ### Native widths -/

theorem State.NativesFit.present {s : State} (h : s.NativesFit) (l : Line) : (s.present l).NativesFit := by
  obtain ⟨hwx, hex, hwy, hdy, hts⟩ := h
  cases l with
  | wrapper t op a b x => exact ⟨fun v e => fmt_of_resolveNative e, hex, fun v e => (nomatch e), hdy, hts⟩
  | encoder t x => exact ⟨hwx, fun v e => fmt_of_resolveNative e, hwy, hdy, hts⟩
  | decoder t p => exact ⟨hwx, hex, hwy, fun v e => (nomatch e), hts⟩
  | adder t a b => exact ⟨hwx, hex, hwy, hdy, hts⟩
  | multiplier t a b => exact ⟨hwx, hex, hwy, hdy, hts⟩

theorem State.NativesFit.driveR8 {s : State} (h : s.NativesFit) (v : Byte) : (s.driveR8 v).NativesFit := by
  obtain ⟨hwx, hex, -, hdy, hts⟩ := h
  exact ⟨hwx, hex, fun v e => (nomatch e), hdy, hts⟩

theorem State.NativesFit.driveEncoder {s : State} (h : s.NativesFit) (v : Byte) : (s.driveEncoder v).NativesFit := by
  cases hvia : s.via with
  | wrapper => rw [State.driveEncoder_onWrapper _ _ hvia]; exact h.driveR8 v
  | ownUnit => rw [State.driveEncoder_onOwnUnit _ _ hvia]; exact h

theorem State.NativesFit.driveAdder {s : State} (h : s.NativesFit) (v : Byte) : (s.driveAdder v).NativesFit := by
  cases hvia : s.via with
  | wrapper => rw [State.driveAdder_onWrapper _ _ hvia]; exact h.driveR8 v
  | ownUnit => rw [State.driveAdder_onOwnUnit _ _ hvia]; exact h

theorem State.NativesFit.driveMultiplier {s : State} (h : s.NativesFit) (v : Byte) :
    (s.driveMultiplier v).NativesFit := by
  cases hvia : s.via with
  | wrapper => rw [State.driveMultiplier_onWrapper _ _ hvia]; exact h.driveR8 v
  | ownUnit => rw [State.driveMultiplier_onOwnUnit _ _ hvia]; exact h

theorem State.NativesFit.driveDecoder {s : State} {v : Native} (h : s.NativesFit) (hv : v.fmt = s.fmt) :
    (s.driveDecoder v).NativesFit := by
  obtain ⟨hwx, hex, hwy, hdy, hts⟩ := h
  cases hvia : s.via with
  | wrapper =>
    rw [State.driveDecoder_onWrapper _ _ hvia]
    refine ⟨hwx, hex, ?_, hdy, hts⟩
    rintro _ ⟨⟩
    exact hv
  | ownUnit =>
    rw [State.driveDecoder_onOwnUnit _ _ hvia]
    refine ⟨hwx, hex, hwy, ?_, hts⟩
    rintro _ ⟨⟩
    exact hv

theorem State.NativesFit.exec {s t : State} {i : Instr} (h : s.NativesFit) (hx : exec i s = .next t) :
    t.NativesFit := by
  cases i with
  | enc8 x =>
    have hn : (s.takeDraws (drawsTaken (.enc8 x))).NativesFit := h
    rw [exec_enc8] at hx; cases hx; exact hn.driveEncoder _
  | dec8 a => rw [exec_dec8] at hx; cases hx; exact h.driveDecoder (dec_fmt s.fmt a)
  | add8 a b => rw [exec_add8] at hx; cases hx; exact h.driveAdder _
  | mul8 a b => rw [exec_mul8] at hx; cases hx; exact h.driveMultiplier _

/-- R73: writing a temporary with a value that fits leaves every temporary fitting. -/
theorem Temps.fits_write {fmt : NativeFmt} {ts : Temps} {v : Result}
    (h : ∀ t w, ts.read t = some w → resultFits fmt w) (hv : resultFits fmt v) (d : Nat) :
    ∀ t w, (Temps.write ts d v).read t = some w → resultFits fmt w := by
  intro t w hw
  by_cases ht : t = d
  · rw [ht, Temps.read_write_same] at hw
    cases hw
    exact hv
  · rw [Temps.read_write_other _ _ _ _ ht] at hw
    exact h t w hw

/-- Sampling an output of the block's width keeps the widths. -/
theorem State.NativesFit.retired {s : State} {o : Op} {v : Result} (h : s.NativesFit) (ho : s.outputOf o = some v)
    (hv : resultFits s.fmt v) (d : Nat) : (s.sample o d).advance.NativesFit := by
  obtain ⟨hwx, hex, hwy, hdy, hts⟩ := h
  simp only [State.NativesFit, State.advance_wrapper, State.advance_encoder, State.advance_decoder, State.advance_temps,
    State.advance_fmt, State.sample_wrapper, State.sample_encoder, State.sample_decoder, State.sample_fmt,
    State.sample_temps_of_output _ _ _ _ ho]
  exact ⟨hwx, hex, hwy, hdy, Temps.fits_write hts hv d⟩

end Sys2Proof.Machine

/-! ### The statements of the family -/

namespace Sys2Proof.Settled
open Sys2Proof.Machine

/-- Settles O53: presenting clears the device's outputs, and the one drive that follows puts there the rule's function
of the operands the decoding found on its ports. -/
theorem stepsKeepOutputsFollowingInputs : Obligations.StepsKeepOutputsFollowingInputs := by
  intro s t hs h
  refine step_keeps ?_ hs h
  intro s l i t hs hd hx
  rw [State.outputsFollow_retired]
  exact (hs.present l).exec (presents_of_decodeAt hd) hx

/-- Settles O4: both outputs are `resultOf` of the instruction, which looks at the draw for a NaN alone. -/
theorem outputDependsOnOperandsAlone : Obligations.OutputDependsOnOperandsAlone := by
  intro i s s' t t' hi hfmt h h'
  rw [exec_output h, exec_output h', hfmt, resultOf_draw hi]

/-- Settles O46: the decoding does not look at the unread ports, and the decoded instruction's result and draws fix
everything compared. -/
theorem unreadInputsHaveNoEffect : Obligations.UnreadInputsHaveNoEffect := by
  intro s rest t o a b x a' b' x' u hx ha hab h
  obtain ⟨i, p, hd, he, rfl⟩ := (step_cons_iff rfl).mp h
  have hd' : decodePorts (.driven o) (resolveByte s.temps a') (resolveByte s.temps b')
      (resolveNative s.fmt s.temps x') = .ok i :=
    (decodePorts_unread (fun ho => congrArg (resolveNative s.fmt s.temps) (hx ho))
      (fun ho => congrArg (resolveByte s.temps) (ha ho))
      (fun ho => ⟨congrArg _ (hab ho).1, congrArg _ (hab ho).2⟩)).trans hd
  have he' := exec_onWrapper i (s := ({ s with program := .wrapper t (.driven o) a' b' x' :: rest } : State).present
    (.wrapper t (.driven o) a' b' x')) rfl
  refine ⟨_, (step_cons_iff (l := .wrapper t (.driven o) a' b' x') rfl).mpr ⟨i, _, hd', he', rfl⟩, ?_⟩
  rw [retired_temps he, retired_temps he', retired_draws he, retired_draws he']
  rw [exec_onWrapper i rfl] at he
  cases he
  cases i <;> simp [resultOf, State.driveWrapper, State.nextDraw, State.present, Line.dest]

/-- Settles O49: each unit's line and the wrapper's line under the operation's select decode to one instruction. -/
theorem ownUnitAgreesWithWrapper : Obligations.OwnUnitAgreesWithWrapper := by
  intro s rest t a b x
  refine ⟨fun u h => ?_, fun u h => ?_, fun u h => ?_, fun u h => ?_⟩
  · exact step_agrees_of_decodeAt h rfl fun _ hd => hd
  · exact step_agrees_of_decodeAt h rfl fun _ hd => read_one_eq_ok.mpr (read_one_eq_ok.mp hd)
  · exact step_agrees_of_decodeAt h rfl fun _ hd => hd
  · exact step_agrees_of_decodeAt h rfl fun _ hd => hd

/-- Settles O54: what is presented is of the port's width, and what is driven and sampled is of the block's. -/
theorem stepsKeepNativeWidths : Obligations.StepsKeepNativeWidths := by
  intro s t hs h
  refine step_keeps ?_ hs h
  intro s l i t hs _ hx
  obtain ⟨hfmt, -, -, -, v, hv, -, hfits⟩ := exec_host_side hx
  exact ((hs.present l).exec hx).retired hv (hfmt ▸ hfits) l.dest

/-- Settles O56: only an execution moves the count, by the draws its instruction takes. -/
theorem stepsKeepTheBuildParameter : Obligations.StepsKeepTheBuildParameter := by
  intro s t h
  rcases step_cases s with ⟨-, hs⟩ | ⟨l, rest, r, -, -, hs⟩ | ⟨l, rest, i, p, -, -, hx, hs⟩ <;>
    rw [hs] at h <;> cases h
  · exact ⟨rfl, le_rfl, Nat.le_succ _⟩
  · obtain ⟨hfmt, -⟩ := exec_host_side hx
    have hle := drawsTaken_le_one i
    rw [retired_draws hx]
    exact ⟨by simp [hfmt], by omega, by omega⟩

/-- Settles O2: on the wrapper every instruction's effect is one drive of `r8` or `y`, and its draws. -/
theorem wrapperTransactionFrame : Obligations.WrapperTransactionFrame := by
  intro i s h
  refine ⟨_, exec_onWrapper i h, ?_⟩
  cases i <;> simp [resultOf, State.driveWrapper, drawsTaken, Instr.op]

/-- Settles O3: on its own unit each instruction's drive is one record update of that unit's output. -/
theorem ownUnitTransactionFrame : Obligations.OwnUnitTransactionFrame := by
  intro i s h
  cases i with
  | enc8 x =>
    have hn : (s.takeDraws (drawsTaken (.enc8 x))).via = .ownUnit := h
    refine ⟨_, exec_enc8 x s, ?_⟩
    rw [State.driveEncoder_onOwnUnit _ _ hn]
    simp [drawsTaken, Instr.op]
  | dec8 a =>
    refine ⟨_, exec_dec8 a s, ?_⟩
    rw [State.driveDecoder_onOwnUnit _ _ h]
    simp [Instr.op]
  | add8 a b =>
    refine ⟨_, exec_add8 a b s, ?_⟩
    rw [State.driveAdder_onOwnUnit _ _ h]
    simp [Instr.op]
  | mul8 a b =>
    refine ⟨_, exec_mul8 a b s, ?_⟩
    rw [State.driveMultiplier_onOwnUnit _ _ h]
    simp [Instr.op]

/-- Settles O40: every execution completes, so a decoded line runs and is retired. -/
theorem stepRunsTheDecodedInstruction : Obligations.StepRunsTheDecodedInstruction := by
  intro s l rest i hp hd
  obtain ⟨t, hx⟩ := exec_total i (s.present l)
  exact ⟨t, hx, (step_cons_iff hp).mpr ⟨i, t, hd, hx, rfl⟩⟩

/-- Settles O41: the word's pattern has the block's width, so all four fields stand on the ports as they are. -/
theorem wrapperLineDecodesAsItsWord : Obligations.WrapperLineDecodesAsItsWord := by
  intro s t w
  have hx : resolveNative s.fmt s.temps (.lit (wordX s.fmt w)) = .driven (wordX s.fmt w) :=
    onNativePort_of_fmt (Laws.wordX_fmt s.fmt w)
  exact congrArg (decodePorts (.driven (wordOp s.fmt w)) (.driven (wordA s.fmt w)) (.driven (wordB s.fmt w))) hx

/-- Settles O42: a literal stands on its port as it is, a native one because it has the width. -/
theorem ownUnitLinesDecode : Obligations.OwnUnitLinesDecode := by
  intro s t x a b
  refine ⟨fun hx => ?_, rfl, rfl, rfl⟩
  exact read_one_eq_ok.mpr ⟨x, onNativePort_of_fmt hx, rfl⟩

/-- Settles O51: the reset state's fields are these values. -/
theorem resetHoldsNothing : Obligations.ResetHoldsNothing :=
  ⟨rfl, rfl, rfl, rfl, rfl, rfl, rfl, rfl, rfl⟩

end Sys2Proof.Settled

/-!
PROOFS. Transactions on the units of their own: what such a line's step does to the state, which temporaries it looks
at, and that two of them on different units go through in either order.
-/
namespace Sys2Proof.Machine

/-! ### Two writes to the temporaries -/

theorem Temps.write_cons_of_lt {t a : Nat} (h : t < a) (q v : Result) (rest : Temps) :
    Temps.write ((a, q) :: rest) t v = (t, v) :: (a, q) :: rest := by
  simp [Temps.write, h]

theorem Temps.write_cons_self (a : Nat) (q v : Result) (rest : Temps) :
    Temps.write ((a, q) :: rest) a v = (a, v) :: rest := by
  simp [Temps.write]

theorem Temps.write_cons_of_gt {t a : Nat} (h : a < t) (q v : Result) (rest : Temps) :
    Temps.write ((a, q) :: rest) t v = (a, q) :: Temps.write rest t v := by
  simp [Temps.write, Nat.not_lt_of_gt h, Nat.ne_of_gt h]

theorem Temps.write_comm_of_lt {t u : Nat} (htu : t < u) (ts : Temps) (v w : Result) :
    Temps.write (Temps.write ts t v) u w = Temps.write (Temps.write ts u w) t v := by
  induction ts with
  | nil => exact (Temps.write_cons_of_gt htu v w []).trans (Temps.write_cons_of_lt htu w v []).symm
  | cons c rest ih =>
    obtain ⟨a, q⟩ := c
    rcases lt_trichotomy t a with hta | rfl | hat
    · rw [Temps.write_cons_of_lt hta, Temps.write_cons_of_gt htu]
      rcases lt_trichotomy u a with hua | rfl | hau
      · rw [Temps.write_cons_of_lt hua, Temps.write_cons_of_lt htu]
      · rw [Temps.write_cons_self, Temps.write_cons_of_lt htu]
      · rw [Temps.write_cons_of_gt hau, Temps.write_cons_of_lt hta]
    · simp only [Temps.write_cons_self, Temps.write_cons_of_gt htu]
    · have hau : a < u := hat.trans htu
      simp only [Temps.write_cons_of_gt hat, Temps.write_cons_of_gt hau, ih]

/-- R236: each temporary has its own place, so the order of two writes to different ones leaves no trace. -/
theorem Temps.write_comm {t u : Nat} (h : t ≠ u) (ts : Temps) (v w : Result) :
    Temps.write (Temps.write ts t v) u w = Temps.write (Temps.write ts u w) t v := by
  rcases lt_or_gt_of_ne h with htu | hut
  · exact Temps.write_comm_of_lt htu ts v w
  · exact (Temps.write_comm_of_lt hut ts w v).symm

/-! ### What a line's decoding looks at -/

theorem resolveByte_congr {ts ts' : Temps} {p : Src Byte} (h : ∀ t ∈ srcReads p, ts'.read t = ts.read t) :
    resolveByte ts' p = resolveByte ts p := by
  cases p with
  | temp t => simp only [resolveByte, h t (List.mem_singleton_self t)]
  | lit v => rfl
  | undriven => rfl
  | changing => rfl

theorem resolveNative_congr {fmt : NativeFmt} {ts ts' : Temps} {x : Src Native}
    (h : ∀ t ∈ srcReads x, ts'.read t = ts.read t) : resolveNative fmt ts' x = resolveNative fmt ts x := by
  cases x with
  | temp t => simp only [resolveNative, h t (List.mem_singleton_self t)]
  | lit v => rfl
  | undriven => rfl
  | changing => rfl

/-- R31, R234: what a presented line decodes to is fixed by the format and the temporaries the line names. -/
theorem decodeAt_present_congr {s s' : State} {l : Line} (hfmt : s'.fmt = s.fmt)
    (h : ∀ t ∈ lineReads l, s'.temps.read t = s.temps.read t) :
    (s'.present l).decodeAt l.device = (s.present l).decodeAt l.device := by
  cases l with
  | wrapper d op a b x =>
    simp only [lineReads, List.forall_mem_append] at h
    obtain ⟨⟨ha, hb⟩, hx⟩ := h
    simp only [State.present, State.decodeAt, Line.device, resolveByte_congr ha, resolveByte_congr hb, hfmt,
      resolveNative_congr hx]
  | encoder d x => simp only [State.present, State.decodeAt, Line.device, hfmt, resolveNative_congr h]
  | decoder d p => simp only [State.present, State.decodeAt, Line.device, resolveByte_congr h]
  | adder d a b =>
    obtain ⟨ha, hb⟩ := List.forall_mem_append.mp h
    simp only [State.present, State.decodeAt, Line.device, resolveByte_congr ha, resolveByte_congr hb]
  | multiplier d a b =>
    obtain ⟨ha, hb⟩ := List.forall_mem_append.mp h
    simp only [State.present, State.decodeAt, Line.device, resolveByte_congr ha, resolveByte_congr hb]

/-- R28: the unit that performs an operation and no other. -/
def unitOf : Op → Device
  | .enc8 => .encoder
  | .dec8 => .decoder
  | .add8 => .adder
  | .mul8 => .multiplier

/-- R69: a line on a unit of its own decodes to that unit's operation. -/
theorem unitOf_of_decodeAt {s : State} {l : Line} {i : Instr} (hl : l.device ≠ .wrapper)
    (h : (s.present l).decodeAt l.device = .ok i) : unitOf i.op = l.device := by
  cases l with
  | wrapper d op a b x => exact absurd rfl hl
  | encoder d x => obtain ⟨v, -, rfl⟩ := read_one_eq_ok.mp h; rfl
  | decoder d p => obtain ⟨v, -, rfl⟩ := read_one_eq_ok.mp h; rfl
  | adder d a b => obtain ⟨v, w, -, -, rfl⟩ := read_two_eq_ok.mp h; rfl
  | multiplier d a b => obtain ⟨v, w, -, -, rfl⟩ := read_two_eq_ok.mp h; rfl

/-- Lines on different units decode to different operations. -/
theorem op_ne_of_decodeAt {s : State} {l m : Line} {i j : Instr} (hl : l.device ≠ .wrapper) (hm : m.device ≠ .wrapper)
    (hlm : l.device ≠ m.device) (hi : (s.present l).decodeAt l.device = .ok i)
    (hj : (s.present m).decodeAt m.device = .ok j) : i.op ≠ j.op :=
  fun e => hlm (by rw [← unitOf_of_decodeAt hl hi, e, unitOf_of_decodeAt hm hj])

/-! ### What a line on a unit of its own does -/

/-- R28: the ports of an instruction's unit after its transaction: the operands, and the output at the draw `d`. -/
def State.settleUnit (s : State) (d : Byte) : Instr → State
  | .enc8 x => { s with encoder := ⟨.driven x, some (enc Config.encodeExpAdjust x d)⟩ }
  | .dec8 a => { s with decoder := ⟨.driven a, some (dec s.fmt a)⟩ }
  | .add8 a b => { s with adder := ⟨.driven a, .driven b, some (add8 Config.encodeExpAdjust a b)⟩ }
  | .mul8 a b => { s with multiplier := ⟨.driven a, .driven b, some (mul8 Config.encodeExpAdjust a b)⟩ }

/-- R73: the host's side of a transaction on a unit of its own: the result `v` in the temporary `t`, and `n` draws
more (log 4). -/
@[simps] def State.book (s : State) (t : Nat) (v : Result) (n : Nat) : State :=
  { s with via := .ownUnit, temps := s.temps.write t v, draws := s.draws + n }

/-- R73, R236: the whole transaction of an instruction on its own unit at the draw `d`, its output going to the
temporary `t`. -/
def State.runOnUnit (s : State) (d : Byte) (i : Instr) (t : Nat) : State :=
  (s.settleUnit d i).book t (resultOf s.fmt d i) (drawsTaken i)

@[simp] theorem State.settleUnit_fmt (s : State) (d : Byte) (i : Instr) : (s.settleUnit d i).fmt = s.fmt := by
  cases i <;> rfl

theorem State.settleUnit_temps (s : State) (d : Byte) (i : Instr) : (s.settleUnit d i).temps = s.temps := by
  cases i <;> rfl

theorem State.settleUnit_draws (s : State) (d : Byte) (i : Instr) : (s.settleUnit d i).draws = s.draws := by
  cases i <;> rfl

theorem State.runOnUnit_fmt (s : State) (d : Byte) (i : Instr) (t : Nat) : (s.runOnUnit d i t).fmt = s.fmt :=
  s.settleUnit_fmt d i

theorem State.runOnUnit_temps (s : State) (d : Byte) (i : Instr) (t : Nat) :
    (s.runOnUnit d i t).temps = s.temps.write t (resultOf s.fmt d i) := by
  rw [State.runOnUnit, State.book_temps, State.settleUnit_temps]

theorem State.runOnUnit_nextDraw (s : State) (d : Byte) (i : Instr) (t : Nat) :
    (s.runOnUnit d i t).nextDraw = Config.nanDraw (s.draws + drawsTaken i) := by
  rw [State.nextDraw, State.runOnUnit, State.book_draws, State.settleUnit_draws]

/-- R22: no unit sees the host's program. -/
theorem State.runOnUnit_load (s : State) (ls : List Line) (d : Byte) (i : Instr) (t : Nat) :
    (s.load ls).runOnUnit d i t = (s.runOnUnit d i t).load ls := by
  cases i <;> rfl

/-- R28: presenting a line on a unit of its own and running what it decodes to settles that unit. -/
theorem exec_present_onUnit {s : State} {l : Line} {i : Instr} (hl : l.device ≠ .wrapper)
    (h : (s.present l).decodeAt l.device = .ok i) : exec i (s.present l) =
      .next { s.settleUnit s.nextDraw i with via := .ownUnit, draws := s.draws + drawsTaken i } := by
  cases l with
  | wrapper d op a b x => exact absurd rfl hl
  | encoder d x =>
    obtain ⟨v, hv : resolveNative s.fmt s.temps x = .driven v, rfl⟩ := read_one_eq_ok.mp h
    rw [exec_enc8, State.present, hv]; rfl
  | decoder d p =>
    obtain ⟨v, hv : resolveByte s.temps p = .driven v, rfl⟩ := read_one_eq_ok.mp h
    rw [exec_dec8, State.present, hv]; rfl
  | adder d a b =>
    obtain ⟨v, w, hv : resolveByte s.temps a = .driven v, hw : resolveByte s.temps b = .driven w, rfl⟩ :=
      read_two_eq_ok.mp h
    rw [exec_add8, State.present, hv, hw]; rfl
  | multiplier d a b =>
    obtain ⟨v, w, hv : resolveByte s.temps a = .driven v, hw : resolveByte s.temps b = .driven w, rfl⟩ :=
      read_two_eq_ok.mp h
    rw [exec_mul8, State.present, hv, hw]; rfl

theorem State.sample_of_output {s : State} {o : Op} {v : Result} (h : s.outputOf o = some v) (t : Nat) :
    s.sample o t = { s with temps := s.temps.write t v } := by
  simp [State.sample, h]

/-- After its line's execution and retirement a transaction on its own unit is `runOnUnit`. -/
theorem retired_onUnit {s t : State} {l : Line} {i : Instr} (hl : l.device ≠ .wrapper)
    (hd : (s.present l).decodeAt l.device = .ok i) (hx : exec i (s.present l) = .next t) :
    (t.sample i.op l.dest).advance = (s.runOnUnit s.nextDraw i l.dest).load s.program.tail := by
  have hout : t.outputOf i.op = some (resultOf s.fmt s.nextDraw i) := by simpa [State.nextDraw] using exec_output hx
  rw [State.sample_of_output hout]
  rw [exec_present_onUnit hl hd] at hx
  cases hx
  cases i <;> rfl

/-- R69, R236: a line on a unit of its own steps when it decodes, and its step is `runOnUnit`. -/
theorem step_onUnit_iff {s u : State} {l : Line} {rest : List Line} (hl : l.device ≠ .wrapper) :
    step (s.load (l :: rest)) = .next u ↔ ∃ i, (s.present l).decodeAt l.device = .ok i ∧
      u = (s.runOnUnit s.nextDraw i l.dest).load rest := by
  have hdec : ((s.load (l :: rest)).present l).decodeAt l.device = (s.present l).decodeAt l.device :=
    decodeAt_present_congr rfl fun _ _ => rfl
  have hrun : ∀ {i t}, (s.present l).decodeAt l.device = .ok i → exec i ((s.load (l :: rest)).present l) = .next t →
      (t.sample i.op l.dest).advance = (s.runOnUnit s.nextDraw i l.dest).load rest := by
    intro i t hd hx
    rw [retired_onUnit hl (hdec.trans hd) hx, State.runOnUnit_load]
    rfl
  rw [step_cons_iff rfl, hdec]
  constructor
  · rintro ⟨i, t, hd, hx, rfl⟩
    exact ⟨i, hd, hrun hd hx⟩
  · rintro ⟨i, hd, rfl⟩
    obtain ⟨t, hx⟩ := exec_total i ((s.load (l :: rest)).present l)
    exact ⟨i, t, hd, hx, (hrun hd hx).symm⟩

/-! ### Two lines on different units -/

theorem State.settleUnit_comm {i j : Instr} (h : i.op ≠ j.op) (s : State) (d e : Byte) :
    (s.settleUnit d i).settleUnit e j = (s.settleUnit e j).settleUnit d i := by
  cases i with
  | enc8 x =>
    cases j with
    | enc8 y => exact absurd rfl h
    | _ => rfl
  | dec8 a =>
    cases j with
    | dec8 b => exact absurd rfl h
    | _ => rfl
  | add8 a b =>
    cases j with
    | add8 c d => exact absurd rfl h
    | _ => rfl
  | mul8 a b =>
    cases j with
    | mul8 c d => exact absurd rfl h
    | _ => rfl

theorem State.settleUnit_book (s : State) (d : Byte) (i : Instr) (t : Nat) (v : Result) (n : Nat) :
    (s.book t v n).settleUnit d i = (s.settleUnit d i).book t v n := by
  cases i <;> rfl

theorem State.book_comm {t u : Nat} (h : t ≠ u) (s : State) (v w : Result) (n m : Nat) :
    (s.book t v n).book u w m = (s.book u w m).book t v n := by
  simp only [State.book, Temps.write_comm h, Nat.add_right_comm]

/-- R46, R51: different units have no port in common, different temporaries no place, and draws are only counted. -/
theorem State.runOnUnit_comm {i j : Instr} {t u : Nat} (hop : i.op ≠ j.op) (htu : t ≠ u) (s : State) (d e : Byte) :
    (s.runOnUnit d i t).runOnUnit e j u = (s.runOnUnit e j u).runOnUnit d i t := by
  simp only [State.runOnUnit, State.settleUnit_book, State.book_fmt, State.settleUnit_fmt,
    State.settleUnit_comm hop s d e, State.book_comm htu]

/-- R111: an instruction that looks at the draw is an ENC8, and one of another unit has taken none before it. -/
theorem State.runOnUnit_draw_after {i j : Instr} (h : i.op ≠ j.op) (s : State) (n t : Nat) :
    s.runOnUnit (Config.nanDraw (n + drawsTaken i)) j t = s.runOnUnit (Config.nanDraw n) j t := by
  cases j with
  | enc8 y =>
    cases i with
    | enc8 x => exact absurd rfl h
    | _ => rfl
  | _ => rfl

/-- A longer run is a step and the rest of the run. -/
theorem run_succ_iff {k : Nat} {s u : State} :
    Sys2Proof.core.run (k + 1) s = .next u ↔ ∃ t, step s = .next t ∧ Sys2Proof.core.run k t = .next u := by
  have hcore : Sys2Proof.core.step s = step s := rfl
  rcases hs : step s with t | r | r <;> rw [hs] at hcore <;> simp [Host.Core.run, hcore]

theorem run_two_iff {s u : State} :
    Sys2Proof.core.run 2 s = .next u ↔ ∃ t, step s = .next t ∧ step t = .next u := by
  have hone : ∀ t : State, Sys2Proof.core.run 1 t = .next u ↔ step t = .next u := by
    refine fun t => (run_succ_iff (k := 0)).trans ⟨?_, fun h => ⟨u, h, rfl⟩⟩
    rintro ⟨v, hv, ⟨⟩⟩
    exact hv
  exact (run_succ_iff (k := 1)).trans (exists_congr fun t => and_congr_right fun _ => hone t)

/-- Two lines on different units, the second not reading the first's output: both decode in the state before, and run
one after the other at the draw of that state. -/
theorem run_two_onUnits_iff {s u : State} {l m : Line} {rest : List Line} (hl : l.device ≠ .wrapper)
    (hm : m.device ≠ .wrapper) (hlm : l.device ≠ m.device) (hread : l.dest ∉ lineReads m) :
    Sys2Proof.core.run 2 (s.load (l :: m :: rest)) = .next u ↔
      ∃ i j, (s.present l).decodeAt l.device = .ok i ∧ (s.present m).decodeAt m.device = .ok j ∧
        u = ((s.runOnUnit s.nextDraw i l.dest).runOnUnit s.nextDraw j m.dest).load rest := by
  have hdec : ∀ i, ((s.runOnUnit s.nextDraw i l.dest).present m).decodeAt m.device =
      (s.present m).decodeAt m.device := by
    refine fun i => decodeAt_present_congr (s.runOnUnit_fmt _ i _) fun t ht => ?_
    rw [State.runOnUnit_temps, Temps.read_write_other _ _ _ _ (ne_of_mem_of_not_mem ht hread)]
  have hdraw : ∀ {i j}, (s.present l).decodeAt l.device = .ok i → (s.present m).decodeAt m.device = .ok j →
      (s.runOnUnit s.nextDraw i l.dest).runOnUnit (s.runOnUnit s.nextDraw i l.dest).nextDraw j m.dest =
        (s.runOnUnit s.nextDraw i l.dest).runOnUnit s.nextDraw j m.dest := by
    intro i j hi hj
    rw [State.runOnUnit_nextDraw]
    exact State.runOnUnit_draw_after (op_ne_of_decodeAt hl hm hlm hi hj) _ _ _
  simp only [run_two_iff, step_onUnit_iff hl]
  constructor
  · rintro ⟨_, ⟨i, hi, rfl⟩, h⟩
    obtain ⟨j, hj, rfl⟩ := (step_onUnit_iff hm).mp h
    rw [hdec] at hj
    exact ⟨i, j, hi, hj, by rw [hdraw hi hj]⟩
  · rintro ⟨i, j, hi, hj, rfl⟩
    refine ⟨_, ⟨i, hi, rfl⟩, (step_onUnit_iff hm).mpr ⟨j, (hdec i).trans hj, ?_⟩⟩
    rw [hdraw hi hj]

end Sys2Proof.Machine

namespace Sys2Proof.Settled
open Sys2Proof.Machine

/-- Settles O50: neither line's decoding sees the other's output, and their two transactions commute. Writes to different
temporaries commute in any list, so their canonical form is not used. -/
theorem independentTransactionsCommute : Obligations.IndependentTransactionsCommute := by
  intro s l m rest u _ hl hm hlm hdest hml hlr h
  obtain ⟨i, j, hi, hj, rfl⟩ := (run_two_onUnits_iff hl hm hlm hlr).mp h
  have hop : i.op ≠ j.op := op_ne_of_decodeAt hl hm hlm hi hj
  exact ⟨_, (run_two_onUnits_iff hm hl hlm.symm hml).mpr
    ⟨j, i, hj, hi, congrArg (State.load · rest) (State.runOnUnit_comm hop hdest s _ _)⟩, rfl⟩

end Sys2Proof.Settled

/-!
PROOFS. Programs that go on: a line whose operands are literals and temporaries of the right kind decodes, and its step
writes the temporary whose kind the rest of the program was checked with.
-/
namespace Sys2Proof.Machine

/-! ### Kinds of temporaries -/

theorem kinds_read_cons_same (ks : Kinds) (t : Nat) (k : Kind) : Kinds.read ((t, k) :: ks) t = some k :=
  if_pos rfl

theorem kinds_read_cons_other {t u : Nat} (h : t ≠ u) (ks : Kinds) (k : Kind) :
    Kinds.read ((t, k) :: ks) u = ks.read u :=
  if_neg h

/-- The kinds written so far are the kinds of the values the temporaries hold. -/
theorem State.kinds_read (s : State) (t : Nat) : s.kinds.read t = (s.temps.read t).map Result.kind := by
  unfold State.kinds
  induction s.temps with
  | nil => rfl
  | cons c rest ih =>
    obtain ⟨u, v⟩ := c
    by_cases h : u = t
    · simp [Kinds.read, Temps.read, h]
    · simp [Kinds.read, Temps.read, h, ih]

/-- R73: after a write the kinds read as with the written temporary put first. -/
theorem State.kinds_read_of_write {s t : State} {d : Nat} {v : Result} (h : t.temps = s.temps.write d v) :
    t.kinds.read = Kinds.read ((d, v.kind) :: s.kinds) := by
  funext u
  rw [t.kinds_read, h]
  by_cases hu : u = d
  · rw [hu, Temps.read_write_same, kinds_read_cons_same]; rfl
  · rw [Temps.read_write_other _ _ _ _ hu, kinds_read_cons_other (Ne.symm hu), s.kinds_read]

/-! ### Well-formedness looks at the kinds by reading them -/

theorem byteWf_congr {ks ks' : Kinds} (h : ks.read = ks'.read) (p : Src Byte) : p.byteWf ks = p.byteWf ks' := by
  cases p with
  | temp t => simp only [Src.byteWf, h]
  | lit v => rfl
  | undriven => rfl
  | changing => rfl

theorem nativeWf_congr {ks ks' : Kinds} (h : ks.read = ks'.read) (fmt : NativeFmt) (x : Src Native) :
    x.nativeWf fmt ks = x.nativeWf fmt ks' := by
  cases x with
  | temp t => simp only [Src.nativeWf, h]
  | lit v => rfl
  | undriven => rfl
  | changing => rfl

theorem operandsWf_congr {ks ks' : Kinds} (h : ks.read = ks'.read) (fmt : NativeFmt) (a b : Src Byte) (x : Src Native)
    (o : Op) : o.operandsWf fmt ks a b x = o.operandsWf fmt ks' a b x := by
  cases o <;> simp only [Op.operandsWf, byteWf_congr h, nativeWf_congr h]

theorem lineWf_congr {ks ks' : Kinds} (h : ks.read = ks'.read) (fmt : NativeFmt) (l : Line) :
    l.wf fmt ks = l.wf fmt ks' := by
  cases l with
  | wrapper t op a b x =>
    cases op with
    | driven o => exact operandsWf_congr h fmt a b x (Op.ofBits o)
    | unknown why => rfl
  | encoder t x => exact nativeWf_congr h fmt x
  | decoder t p => exact byteWf_congr h p
  | adder t a b => simp only [Line.wf, byteWf_congr h]
  | multiplier t a b => simp only [Line.wf, byteWf_congr h]

theorem kindsAfter_congr {ks ks' : Kinds} (h : ks.read = ks'.read) (l : Line) :
    (l.kindsAfter ks).read = (l.kindsAfter ks').read := by
  unfold Line.kindsAfter
  cases l.op with
  | none => exact h
  | some o => funext u; simp only [Kinds.read, h]

/-- R73: two records of kinds that read alike admit the same programs. -/
theorem programWf_congr (fmt : NativeFmt) (ls : List Line) :
    ∀ {ks ks' : Kinds}, ks.read = ks'.read → programWf fmt ks ls = programWf fmt ks' ls := by
  induction ls with
  | nil => exact fun _ => rfl
  | cons l rest ih => intro ks ks' h; simp only [programWf, lineWf_congr h, ih (kindsAfter_congr h l)]

/-! ### Well-formed operands are driven -/

/-- R73: a well-formed byte operand is a literal or a temporary that holds a byte. -/
theorem resolveByte_of_wf {s : State} {p : Src Byte} (h : p.byteWf s.kinds = true) :
    ∃ v, resolveByte s.temps p = .driven v := by
  cases p with
  | lit v => exact ⟨v, rfl⟩
  | undriven => cases h
  | changing => cases h
  | temp t =>
    rw [Src.byteWf, s.kinds_read, beq_iff_eq, Option.map_eq_some_iff] at h
    obtain ⟨r, hr, hk⟩ := h
    cases r with
    | byte v => exact ⟨v, by simp only [resolveByte, hr]⟩
    | native v => cases hk

theorem read_byte_of_wf {s : State} {p : Src Byte} (h : p.byteWf s.kinds = true) (port : PortName)
    (f : Byte → Instr) : ∃ v, ((resolveByte s.temps p).read port).map f = .ok (f v) := by
  obtain ⟨v, hv⟩ := resolveByte_of_wf h
  exact ⟨v, read_one_eq_ok.mpr ⟨v, hv, rfl⟩⟩

theorem read_bytes_of_wf {s : State} {a b : Src Byte} (h : (a.byteWf s.kinds && b.byteWf s.kinds) = true)
    (f : Byte → Byte → Instr) :
    ∃ v w, (((resolveByte s.temps a).read .a).bind fun va => ((resolveByte s.temps b).read .b).map (f va)) =
      .ok (f v w) := by
  obtain ⟨ha, hb⟩ := Bool.and_eq_true_iff.mp h
  obtain ⟨v, hv⟩ := resolveByte_of_wf ha
  obtain ⟨w, hw⟩ := resolveByte_of_wf hb
  exact ⟨v, w, read_two_eq_ok.mpr ⟨v, w, hv, hw, rfl⟩⟩

section
variable {s : State} (hfits : ∀ t v, s.temps.read t = some v → resultFits s.fmt v)
include hfits

/-- R28, R73: a well-formed native operand is a literal or a temporary that holds a pattern, of the port's width. -/
theorem resolveNative_of_wf {x : Src Native} (h : x.nativeWf s.fmt s.kinds = true) :
    ∃ v, resolveNative s.fmt s.temps x = .driven v := by
  cases x with
  | lit v => exact ⟨v, onNativePort_of_fmt (eq_of_beq h)⟩
  | undriven => cases h
  | changing => cases h
  | temp t =>
    rw [Src.nativeWf, s.kinds_read, beq_iff_eq, Option.map_eq_some_iff] at h
    obtain ⟨r, hr, hk⟩ := h
    cases r with
    | byte v => cases hk
    | native v => exact ⟨v, by simpa only [resolveNative, hr] using onNativePort_of_fmt (hfits t _ hr)⟩

theorem read_native_of_wf {x : Src Native} (h : x.nativeWf s.fmt s.kinds = true) :
    ∃ v, ((resolveNative s.fmt s.temps x).read .x).map Instr.enc8 = .ok (.enc8 v) := by
  obtain ⟨v, hv⟩ := resolveNative_of_wf hfits h
  exact ⟨v, read_one_eq_ok.mpr ⟨v, hv, rfl⟩⟩

/-- R203: the wrapper decodes the selected operation when the operands that operation reads are well formed. -/
theorem decodePorts_of_wf {o : OpBits} {a b : Src Byte} {x : Src Native}
    (h : (Op.ofBits o).operandsWf s.fmt s.kinds a b x = true) :
    ∃ i, decodePorts (.driven o) (resolveByte s.temps a) (resolveByte s.temps b)
      (resolveNative s.fmt s.temps x) = .ok i ∧ Op.ofBits o = i.op := by
  simp only [decodePorts]
  cases ho : Op.ofBits o <;> rw [ho] at h
  case enc8 => obtain ⟨v, hv⟩ := read_native_of_wf hfits h; exact ⟨_, hv, rfl⟩
  case dec8 => obtain ⟨v, hv⟩ := read_byte_of_wf h .a Instr.dec8; exact ⟨_, hv, rfl⟩
  case add8 => obtain ⟨v, w, hv⟩ := read_bytes_of_wf h Instr.add8; exact ⟨_, hv, rfl⟩
  case mul8 => obtain ⟨v, w, hv⟩ := read_bytes_of_wf h Instr.mul8; exact ⟨_, hv, rfl⟩

/-- R203, R73: a well-formed line decodes, to an instruction of the line's operation. -/
theorem decodeAt_of_wf {l : Line} (h : l.wf s.fmt s.kinds = true) :
    ∃ i, (s.present l).decodeAt l.device = .ok i ∧ l.op = some i.op := by
  cases l with
  | wrapper t op a b x =>
    cases op with
    | unknown why => cases h
    | driven o => obtain ⟨i, hi, ho⟩ := decodePorts_of_wf hfits h; exact ⟨i, hi, congrArg some ho⟩
  | encoder t x => obtain ⟨v, hv⟩ := read_native_of_wf hfits h; exact ⟨_, hv, rfl⟩
  | decoder t p => obtain ⟨v, hv⟩ := read_byte_of_wf h .p Instr.dec8; exact ⟨_, hv, rfl⟩
  | adder t a b => obtain ⟨v, w, hv⟩ := read_bytes_of_wf h Instr.add8; exact ⟨_, hv, rfl⟩
  | multiplier t a b => obtain ⟨v, w, hv⟩ := read_bytes_of_wf h Instr.mul8; exact ⟨_, hv, rfl⟩

end

/-! ### One step of a well-formed program -/

theorem resultOf_kind (fmt : NativeFmt) (d : Byte) (i : Instr) : (resultOf fmt d i).kind = i.op.outKind := by
  cases i <;> rfl

theorem resultOf_fits (fmt : NativeFmt) (d : Byte) (i : Instr) : resultFits fmt (resultOf fmt d i) := by
  cases i with
  | dec8 a => exact dec_fmt fmt a
  | enc8 x => trivial
  | add8 a b => trivial
  | mul8 a b => trivial

/-- R236: the rest of a well-formed program stays well formed after its first line's transaction. -/
theorem State.Ready.retired {s t : State} {l : Line} {rest : List Line} {i : Instr} (hs : s.Ready)
    (hp : s.program = l :: rest) (hop : l.op = some i.op) (hx : Machine.exec i (s.present l) = .next t) :
    (t.sample i.op l.dest).advance.Ready ∧ (t.sample i.op l.dest).advance.program = rest := by
  have ⟨hwf, hfits⟩ := hs
  obtain ⟨hfmt, -, -, hprog, -⟩ := exec_host_side hx
  have htemps := retired_temps hx
  have hfmt' : (t.sample i.op l.dest).advance.fmt = s.fmt := by simp [hfmt]
  have hrest : (t.sample i.op l.dest).advance.program = rest := by simp [hprog, hp]
  have hkinds : (t.sample i.op l.dest).advance.kinds.read = (l.kindsAfter s.kinds).read := by
    rw [State.kinds_read_of_write htemps, resultOf_kind, Line.kindsAfter, hop]
  rw [hp, programWf, Bool.and_eq_true] at hwf
  refine ⟨⟨?_, ?_⟩, hrest⟩
  · rw [hfmt', hrest, programWf_congr s.fmt rest hkinds]
    exact hwf.2
  · rw [hfmt', htemps]
    exact Temps.fits_write hfits (resultOf_fits s.fmt s.nextDraw i) l.dest

end Sys2Proof.Machine

namespace Sys2Proof.Settled
open Sys2Proof.Machine

/-- Settles O57: the next line is well formed, so it decodes and runs; its temporary then has the kind of the line's
operation, with which the rest of the program was checked. -/
theorem readyProgramsGoOn : Obligations.ReadyProgramsGoOn := by
  intro s hs
  cases hp : s.program with
  | nil => exact ⟨s, by simp [step, hp, State.ended], hs, hp⟩
  | cons l rest =>
    have ⟨hwf, hfits⟩ := hs
    rw [hp, programWf, Bool.and_eq_true] at hwf
    obtain ⟨hline, -⟩ := hwf
    obtain ⟨i, hd, hop⟩ := decodeAt_of_wf hfits hline
    obtain ⟨t, hx⟩ := exec_total i (s.present l)
    exact ⟨_, (step_cons_iff hp).mpr ⟨i, t, hd, hx, rfl⟩, hs.retired hp hop hx⟩

end Sys2Proof.Settled

/-!
PROOFS. Transaction words: the four fields of a word stand on the ports, and the operation its select names takes those
it reads.
-/
namespace Sys2Proof.Machine

/-- R72: the instruction an operation forms from the fields of a transaction word. -/
def instrOf (a b : Byte) (x : Native) : Op → Instr
  | .enc8 => .enc8 x
  | .dec8 => .dec8 a
  | .add8 => .add8 a b
  | .mul8 => .mul8 a b

/-- R29, R71: with every port driven the wrapper decodes every select. -/
theorem decodePorts_driven (o : OpBits) (a b : Byte) (x : Native) :
    decodePorts (.driven o) (.driven a) (.driven b) (.driven x) = .ok (instrOf a b x (Op.ofBits o)) := by
  cases ho : Op.ofBits o <;> simp [decodePorts, ho, instrOf, Except.map, Except.bind]

/-- R72: a word put together from its fields decodes to the instruction of those fields. -/
theorem decodeWord_packWord (fmt : NativeFmt) (o : OpBits) (a b : Byte) (n : Nat) :
    decodeWord fmt (packWord fmt o a b n) = .ok (instrOf a b (Native.ofNat fmt n) (Op.ofBits o)) := by
  rw [decodeWord, wordOp_packWord, wordA_packWord, wordB_packWord, wordX_packWord, decodePorts_driven]

/-- R70: the instruction of the fields, by the four select codes. -/
theorem instrOf_ofBits (o : OpBits) (a b : Byte) (x : Native) :
    instrOf a b x (Op.ofBits o) =
      if o = 0b00#2 then .enc8 x else if o = 0b01#2 then .dec8 a
      else if o = 0b10#2 then .add8 a b else .mul8 a b := by
  unfold Op.ofBits
  split_ifs <;> rfl

end Sys2Proof.Machine

namespace Sys2Proof.Settled
open Sys2Proof.Machine

/-- Settles O37: the word of an instruction is packed under its operation's select with the fields it reads, which come
back from the word; the native one because it has the block's width. -/
theorem decodeInvertsEncode : Obligations.DecodeInvertsEncode := by
  intro fmt i hi
  cases i with
  | enc8 x =>
    obtain rfl : x.fmt = fmt := eq_of_beq hi
    rw [encode, decodeWord_packWord, Op.ofBits_bits, ofNat_toNat, instrOf]
  | dec8 a => rw [encode, decodeWord_packWord, Op.ofBits_bits, instrOf]
  | add8 a b => rw [encode, decodeWord_packWord, Op.ofBits_bits, instrOf]
  | mul8 a b => rw [encode, decodeWord_packWord, Op.ofBits_bits, instrOf]

/-- Settles O38: a packed word decodes by its select alone, and its pattern is the one packed. -/
theorem everyWordDecodes : Obligations.EveryWordDecodes := by
  rintro _ o a b x rfl
  rw [decodeWord_packWord, ofNat_toNat, instrOf_ofBits]

/-- Settles O39: the four fields of each word, read off by evaluation. -/
theorem sampleWordsDecode : Obligations.SampleWordsDecode :=
  ⟨rfl, rfl, rfl, rfl⟩

end Sys2Proof.Settled

/-!
PROOFS. The fields of a packed byte and of a native pattern: sign, exponent and mantissa side by side (R60, R64), so
that packing and the extraction of fields invert each other.
-/
namespace Sys2Proof.Machine

/-- The sign, exponent and mantissa fields of a vector, side by side, are the vector. -/
theorem append_extracted_fields {e p : Nat} (w : BitVec (1 + e + p)) :
    BitVec.ofBool (w.getLsbD (p + e)) ++ BitVec.ofNat e (w.extractLsb' p e).toNat ++
      BitVec.ofNat p (w.extractLsb' 0 p).toNat = w := by
  have hsign : BitVec.ofBool (w.getLsbD (p + e)) = w.extractLsb' (p + e) 1 := by
    ext i hi
    obtain rfl : i = 0 := by omega
    simp
  rw [hsign, BitVec.ofNat_toNat, BitVec.setWidth_eq, BitVec.ofNat_toNat, BitVec.setWidth_eq,
    BitVec.extractLsb'_append_extractLsb'_eq_extractLsb' rfl,
    BitVec.extractLsb'_append_extractLsb'_eq_extractLsb' (by omega), BitVec.extractLsb'_eq_self]

/-! ### Packed bytes -/

theorem packByte_fields (p : Byte) : packByte (signOf p) (expOf p) (mantOf p) = p :=
  append_extracted_fields (e := 4) (p := 3) p

theorem expOf_lt (p : Byte) : expOf p < 16 := (p.extractLsb' 3 4).isLt

theorem mantOf_lt (p : Byte) : mantOf p < 8 := (p.extractLsb' 0 3).isLt

theorem signOf_packByte (s : Bool) (b f : Nat) : signOf (packByte s b f) = s := by
  rw [signOf, packByte, BitVec.getLsbD_append, BitVec.getLsbD_append]
  simp

theorem expOf_packByte (s : Bool) {b : Nat} (hb : b < 16) (f : Nat) : expOf (packByte s b f) = b := by
  rw [expOf, packByte, BitVec.extractLsb'_append_eq_of_le (le_refl 3), BitVec.extractLsb'_append_eq_right,
    BitVec.toNat_ofNat, Nat.mod_eq_of_lt hb]

theorem mantOf_packByte (s : Bool) (b : Nat) {f : Nat} (hf : f < 8) : mantOf (packByte s b f) = f := by
  rw [mantOf, packByte, BitVec.extractLsb'_append_eq_right, BitVec.toNat_ofNat, Nat.mod_eq_of_lt hf]

/-- R60: the bit weights of the fields. -/
theorem packByte_toNat (s : Bool) {b f : Nat} (hb : b < 16) (hf : f < 8) :
    (packByte s b f).toNat = (if s then 128 else 0) + b * 8 + f := by
  have hsb : (BitVec.ofBool s ++ BitVec.ofNat 4 b).toNat = s.toNat * 16 + b := by
    rw [BitVec.toNat_append, ← Nat.shiftLeft_add_eq_or_of_lt (BitVec.isLt _), Nat.shiftLeft_eq, BitVec.toNat_ofBool,
      BitVec.toNat_ofNat, Nat.mod_eq_of_lt hb]
  rw [packByte, BitVec.toNat_append, ← Nat.shiftLeft_add_eq_or_of_lt (BitVec.isLt _), Nat.shiftLeft_eq, hsb,
    BitVec.toNat_ofNat, Nat.mod_eq_of_lt hf]
  cases s with
  | true => rw [Bool.toNat_true, if_pos rfl]; omega
  | false => rw [Bool.toNat_false, if_neg Bool.false_ne_true]; omega

/-! ### Native patterns -/

/-- R64: a native pattern is the packing of its three fields. -/
theorem packNative_fields (w : Native) : packNative w.fmt (nativeSign w) (nativeExp w) (nativeFrac w) = w := by
  cases w with
  | b32 w => exact congrArg Native.b32 (append_extracted_fields (e := 8) (p := 23) w)
  | b64 w => exact congrArg Native.b64 (append_extracted_fields (e := 11) (p := 52) w)

theorem nativeFrac_lt (w : Native) : nativeFrac w < 2 ^ fracBits w.fmt := by
  cases w with
  | b32 w => exact (w.extractLsb' 0 23).isLt
  | b64 w => exact (w.extractLsb' 0 52).isLt

theorem nativeEmax_ne_zero (fmt : NativeFmt) : nativeEmax fmt ≠ 0 := by cases fmt <;> decide

/-! ### The value of a native pattern -/

theorem val_of_infinity {w : Native} (he : nativeExp w = nativeEmax w.fmt) (hf : nativeFrac w = 0) :
    val w = .infinity (nativeSign w) := by
  simp [val, he, hf]

theorem val_of_zero {w : Native} (he : nativeExp w = 0) (hf : nativeFrac w = 0) : val w = .zero (nativeSign w) := by
  simp [val, he, hf, (nativeEmax_ne_zero w.fmt).symm]

theorem val_of_subnormal {w : Native} (he : nativeExp w = 0) (hf : nativeFrac w ≠ 0) :
    val w = .finite (withSign (nativeSign w)
      (Exact.scale ⟨nativeFrac w, -(fracBits w.fmt : Int)⟩ (1 - nativeBias w.fmt))) := by
  simp [val, he, hf, (nativeEmax_ne_zero w.fmt).symm]

theorem val_of_normal {w : Native} (h0 : nativeExp w ≠ 0) (hmax : nativeExp w ≠ nativeEmax w.fmt) :
    val w = .finite (withSign (nativeSign w)
      (Exact.scale ⟨2 ^ fracBits w.fmt + nativeFrac w, -(fracBits w.fmt : Int)⟩
        (nativeExp w - nativeBias w.fmt))) := by
  simp [val, h0, hmax]

theorem Exact.toRat_withSign (s : Bool) (r : Exact) : (withSign s r).toRat = (if s then -1 else 1) * r.toRat := by
  cases s <;> simp [withSign]

/-- The value of an integer over a power of two. -/
theorem Exact.toRat_mk_neg (n : Int) (k : Nat) : (Exact.mk n (-(k : Int))).toRat = n / (2 : Rat) ^ k := by
  rw [Exact.toRat, zpow_neg, zpow_natCast, div_eq_mul_inv]

theorem ratOf_of_subnormal {w : Native} (he : nativeExp w = 0) (hf : nativeFrac w ≠ 0) :
    ratOf w = some ((if nativeSign w then -1 else 1) * ((nativeFrac w : Rat) / (2 : Rat) ^ fracBits w.fmt) *
      (2 : Rat) ^ (1 - nativeBias w.fmt)) := by
  rw [ratOf_of_finite (val_of_subnormal he hf), Exact.toRat_withSign, Exact.toRat_scale, Exact.toRat_mk_neg,
    Int.cast_natCast, mul_assoc]

theorem ratOf_of_normal {w : Native} (h0 : nativeExp w ≠ 0) (hmax : nativeExp w ≠ nativeEmax w.fmt) :
    ratOf w = some ((if nativeSign w then -1 else 1) * (1 + (nativeFrac w : Rat) / (2 : Rat) ^ fracBits w.fmt) *
      (2 : Rat) ^ ((nativeExp w : Int) - nativeBias w.fmt)) := by
  have hone : (((2 ^ fracBits w.fmt + nativeFrac w : Int)) : Rat) / (2 : Rat) ^ fracBits w.fmt =
      1 + (nativeFrac w : Rat) / (2 : Rat) ^ fracBits w.fmt := by
    push_cast
    rw [add_div, div_self (by positivity)]
  rw [ratOf_of_finite (val_of_normal h0 hmax), Exact.toRat_withSign, Exact.toRat_scale, Exact.toRat_mk_neg, hone,
    mul_assoc]

end Sys2Proof.Machine

namespace Sys2Proof.Settled
open Sys2Proof.Machine

/-- Settles O22: one lemma for each field of a packed byte, and the byte as the packing of its fields. -/
theorem packedByteFields : Obligations.PackedByteFields := by
  refine ⟨fun p => ⟨packByte_fields p, expOf_lt p, mantOf_lt p, ?_⟩, fun s b f hb hf => ?_⟩
  · have h := packByte_toNat (signOf p) (expOf_lt p) (mantOf_lt p)
    rwa [packByte_fields] at h
  · exact ⟨packByte_toNat s hb hf, signOf_packByte s b f, expOf_packByte s hb f, mantOf_packByte s b hf⟩

/-- Settles O20: one case of the value for each range of the fields. -/
theorem nativePatternValues : Obligations.NativePatternValues := by
  intro w
  refine ⟨val_of_infinity, fun he hf => (val_eq_nan_iff w).mpr ?_, val_of_zero, ratOf_of_subnormal, ratOf_of_normal⟩
  simp [isNaN, he, hf]

end Sys2Proof.Settled

/-!
PROOFS. The native pattern of an exact value (R66): `frexp` of a value is fixed by its binade, and gives back the
exponent and fraction fields of a normal pattern of that value.
-/
namespace Sys2Proof.Machine

/-- R101: the two parts of `frexp` stand for the value. -/
theorem Exact.frexp_toRat (y : Exact) : y.frexp.1.toRat * (2 : Rat) ^ y.frexp.2 = y.toRat := by
  simp only [Exact.frexp, Exact.toRat]
  rw [mul_assoc, ← zpow_add₀ (two_ne_zero : (2 : Rat) ≠ 0), neg_add_cancel_left]

/-- A value is positive when its numerator is. -/
theorem Exact.num_pos_iff {y : Exact} : 0 < y.num ↔ 0 < y.toRat := by
  rw [Exact.toRat, mul_pos_iff_of_pos_right (two_zpow_pos y.exp), Int.cast_pos]

/-- R101: the exponent of `frexp` is one above the binade the value lies in. -/
theorem Exact.frexp_exp {y : Exact} {k : Int} (hle : (2 : Rat) ^ k ≤ y.toRat)
    (hlt : y.toRat < (2 : Rat) ^ (k + 1)) : y.frexp.2 = k + 1 := by
  have hnum : 0 < y.num := Exact.num_pos_iff.mpr ((two_zpow_pos k).trans_le hle)
  have hcast : (y.num.natAbs : Rat) = y.num := by rw [Nat.cast_natAbs, abs_of_pos hnum]
  have hlo : (2 : Rat) ^ ((Nat.log2 y.num.natAbs : Int) + y.exp) ≤ y.toRat := by
    rw [zpow_add₀ two_ne_zero, zpow_natCast, Exact.toRat, ← hcast]
    gcongr
    exact_mod_cast Nat.log2_self_le (by omega)
  have hhi : y.toRat < (2 : Rat) ^ ((Nat.log2 y.num.natAbs : Int) + 1 + y.exp) := by
    rw [zpow_add₀ two_ne_zero, Exact.toRat, ← hcast]
    gcongr
    exact_mod_cast Nat.lt_log2_self
  have hk := (zpow_lt_zpow_iff_right₀ (one_lt_two : (1 : Rat) < 2)).mp (hlo.trans_lt hlt)
  have hk' := (zpow_lt_zpow_iff_right₀ (one_lt_two : (1 : Rat) < 2)).mp (hle.trans_lt hhi)
  simp only [Exact.frexp]
  omega

/-- R101: a value `c * 2^k` with `1 <= c < 2` has the `frexp` of `c / 2` and `k + 1`. -/
theorem Exact.frexp_of_toRat_eq {y : Exact} {c : Rat} {k : Int} (hy : y.toRat = c * (2 : Rat) ^ k) (h1 : 1 ≤ c)
    (h2 : c < 2) : y.frexp.1.toRat * 2 = c ∧ y.frexp.2 = k + 1 := by
  have hexp : y.frexp.2 = k + 1 := by
    refine Exact.frexp_exp ?_ ?_
    · rw [hy]; exact le_mul_of_one_le_left (two_zpow_pos k).le h1
    · rw [hy, zpow_add_one₀ two_ne_zero, mul_comm]; gcongr
  have hval : y.frexp.1.toRat * 2 * (2 : Rat) ^ k = c * (2 : Rat) ^ k := by
    rw [mul_assoc, ← zpow_one_add₀ two_ne_zero, add_comm, ← hexp, y.frexp_toRat, hy]
  exact ⟨mul_right_cancel₀ (two_zpow_pos k).ne' hval, hexp⟩

/-- R66: the sign and the magnitude of a nonzero value. -/
theorem Exact.signed_parts {r : Exact} {s : Bool} {v : Rat} (hv : 0 < v) (hr : r.toRat = (if s then -1 else 1) * v) :
    r.isZero = false ∧ r.isNeg = s ∧ r.abs.toRat = v := by
  rw [Bool.eq_false_iff, Ne, Exact.isZero_iff, Bool.eq_iff_iff, Exact.isNeg_iff, Exact.toRat_abs, hr]
  cases s with
  | true => simp [hv.ne', hv, abs_of_pos hv]
  | false => simp [hv.ne', hv.le, abs_of_pos hv]

/-- R66: the pattern of an exact value `(-1)^s * (1 + F / 2^P) * 2^(E - bias)` has the fields `s`, `E` and `F`. -/
theorem bitsNative_of_normal {fmt : NativeFmt} {r : Exact} {s : Bool} {E F : Nat} (hF : F < 2 ^ fracBits fmt)
    (hr : r.toRat = (if s then -1 else 1) * (1 + (F : Rat) / (2 : Rat) ^ fracBits fmt) *
      (2 : Rat) ^ ((E : Int) - nativeBias fmt)) : bitsNative fmt r = packNative fmt s E F := by
  have hP : (0 : Rat) < (2 : Rat) ^ fracBits fmt := by positivity
  have hlt : (F : Rat) / (2 : Rat) ^ fracBits fmt < 1 := (div_lt_one hP).mpr (by exact_mod_cast hF)
  have hge : 0 ≤ (F : Rat) / (2 : Rat) ^ fracBits fmt := by positivity
  rw [mul_assoc] at hr
  obtain ⟨hzero, hsign, habs⟩ := Exact.signed_parts (mul_pos (by linarith) (two_zpow_pos _)) hr
  obtain ⟨hm, he⟩ := Exact.frexp_of_toRat_eq habs (by linarith) (by linarith)
  have hfrac : (((r.abs.frexp.1.mul (.ofInt 2)).sub (.ofInt 1)).scale (fracBits fmt)).floor = F := by
    rw [Exact.floor_eq, Exact.toRat_scale, Exact.toRat_sub, Exact.toRat_mul, Exact.toRat_ofInt, Exact.toRat_ofInt,
      Int.cast_ofNat, Int.cast_one, hm, add_sub_cancel_left, zpow_natCast, div_mul_cancel₀ _ hP.ne', Int.floor_natCast]
  have hexp : (r.abs.frexp.2 - 1 + nativeBias fmt).toNat = E := by omega
  simp [bitsNative, hzero, hsign, hfrac, hexp]

end Sys2Proof.Machine

namespace Sys2Proof.Settled
open Sys2Proof.Machine

/-- Settles O21: a normal pattern's value fixes its three fields, and the pattern is the packing of them. -/
theorem bitsNativeInvertsTheValue : Obligations.BitsNativeInvertsTheValue := by
  refine ⟨fun fmt r h => ?_, fun w r h0 hmax h => ?_⟩
  · simp [bitsNative, Exact.isZero, h]
  · rw [ratOf_of_normal h0 hmax, Option.some.injEq] at h
    rw [bitsNative_of_normal (nativeFrac_lt w) h.symm, packNative_fields]

end Sys2Proof.Settled

/-!
PROOFS. `frexp` of a positive value (R101) and the two fields ENC8 computes from it: the biased exponent by the powers
of two around the value (R104), the mantissa by a floor (R107).
-/
namespace Sys2Proof.Machine

/-! ### `frexp` -/

/-- R101: `e = floor(log2 y) + 1`. -/
theorem Exact.frexp_bounds {y : Exact} (hy : 0 < y.num) :
    (2 : Rat) ^ (y.frexp.2 - 1) ≤ y.toRat ∧ y.toRat < (2 : Rat) ^ y.frexp.2 := by
  obtain ⟨k, hle, hlt⟩ := exists_mem_Ico_zpow (Exact.num_pos_iff.mp hy) (one_lt_two : (1 : Rat) < 2)
  rw [Exact.frexp_exp hle hlt, add_sub_cancel_right]
  exact ⟨hle, hlt⟩

/-- R101: `m = y / 2^e`. -/
theorem Exact.frexp_mantissa (y : Exact) : y.frexp.1.toRat = y.toRat / (2 : Rat) ^ y.frexp.2 :=
  (eq_div_iff (two_zpow_pos _).ne').mpr y.frexp_toRat

theorem Exact.frexp_mantissa_bounds {y : Exact} (hy : 0 < y.num) :
    1 / 2 ≤ y.frexp.1.toRat ∧ y.frexp.1.toRat < 1 := by
  obtain ⟨hle, hlt⟩ := Exact.frexp_bounds hy
  rw [zpow_sub_one₀ two_ne_zero, ← div_eq_mul_inv] at hle
  have hp := two_zpow_pos y.frexp.2
  rw [y.frexp_mantissa, le_div_iff₀ hp, div_lt_one hp, one_div_mul_eq_div]
  exact ⟨hle, hlt⟩

/-- The exponent of `frexp` is at most `k` exactly below `2^k`. -/
theorem Exact.frexp_exp_le_iff {y : Exact} (hy : 0 < y.num) (k : Int) : y.frexp.2 ≤ k ↔ y.toRat < (2 : Rat) ^ k := by
  obtain ⟨hle, hlt⟩ := Exact.frexp_bounds hy
  constructor
  · intro h
    exact hlt.trans_le (zpow_le_zpow_right₀ one_le_two h)
  · intro h
    have := (zpow_lt_zpow_iff_right₀ (one_lt_two : (1 : Rat) < 2)).mp (hle.trans_lt h)
    omega

/-! ### The exponent and mantissa of ENC8 -/

/-- R104 with the normative offset. -/
theorem biasedExp_eq (y : Exact) : biasedExp Config.encodeExpAdjust y = y.frexp.2 + 7 :=
  add_zero (y.frexp.2 + 7)

theorem Exact.abs_num_pos {r : Exact} (h : r.num ≠ 0) : 0 < r.abs.num :=
  Int.natCast_pos.mpr (Int.natAbs_pos.mpr h)

/-- R105: the underflow test is a comparison with `2^-7`. -/
theorem biasedExp_nonpos_iff {r : Exact} (h : r.num ≠ 0) :
    biasedExp Config.encodeExpAdjust r.abs ≤ 0 ↔ |r.toRat| < (2 : Rat) ^ (-7 : Int) := by
  rw [← Exact.toRat_abs, ← Exact.frexp_exp_le_iff (Exact.abs_num_pos h), biasedExp_eq]
  omega

/-- R106: the overflow test is a comparison with `2^8`. -/
theorem biasedExp_ge_sixteen_iff {r : Exact} (h : r.num ≠ 0) :
    16 ≤ biasedExp Config.encodeExpAdjust r.abs ↔ (2 : Rat) ^ (8 : Int) ≤ |r.toRat| := by
  rw [← not_lt (a := |r.toRat|), ← Exact.toRat_abs, ← Exact.frexp_exp_le_iff (Exact.abs_num_pos h), biasedExp_eq]
  omega

/-- R107: where the floor is already in `0..7`, the three bits kept are that floor. -/
theorem mantissaField_of_floor {y : Exact} {f : Nat} (hf : f < 8) (h : ⌊(y.frexp.1.toRat * 2 - 1) * 8⌋ = f) :
    mantissaField y = f := by
  have hfloor : (((y.frexp.1.mul (.ofInt 2)).sub (.ofInt 1)).mul (.ofInt 8)).floor = f := by
    rw [Exact.floor_eq, ← h]
    simp
  simp only [mantissaField, hfloor]
  omega

end Sys2Proof.Machine

namespace Sys2Proof.Settled
open Sys2Proof.Machine

/-- Settles O9: another pair `(m, e)` has `1 <= 2m < 2`, so it is the one the value's binade fixes. -/
theorem frexpIsTheUniquePair : Obligations.FrexpIsTheUniquePair := by
  intro y hy
  obtain ⟨hhalf, hone⟩ := Exact.frexp_mantissa_bounds hy
  obtain ⟨hle, hlt⟩ := Exact.frexp_bounds hy
  refine ⟨y.frexp_toRat.symm, hhalf, hone, fun m e hme h1 h2 => ?_, hle, hlt, y.frexp_mantissa⟩
  have hscaled : y.toRat = m * 2 * (2 : Rat) ^ (e - 1) := by
    rw [hme, mul_assoc, ← zpow_one_add₀ two_ne_zero, add_sub_cancel]
  obtain ⟨hm, he⟩ := Exact.frexp_of_toRat_eq hscaled (by linarith) (by linarith)
  exact ⟨by linarith, by omega⟩

/-- Settles O10: `1/2 <= m < 1` puts `(2m - 1) * 8` in `[0, 8)`, so its floor needs no more than three bits. -/
theorem mantissaFieldIsTheExactFloor : Obligations.MantissaFieldIsTheExactFloor := by
  intro y hy
  obtain ⟨hhalf, hone⟩ := Exact.frexp_mantissa_bounds hy
  have hnonneg : 0 ≤ ⌊(y.frexp.1.toRat * 2 - 1) * 8⌋ := Int.floor_nonneg.mpr (by linarith)
  have hlt : ⌊(y.frexp.1.toRat * 2 - 1) * 8⌋ < 8 := Int.floor_lt.mpr (by push_cast; linarith)
  obtain ⟨f, hf⟩ := Int.eq_ofNat_of_zero_le hnonneg
  have hf8 : f < 8 := by omega
  rw [mantissaField_of_floor hf8 hf]
  exact ⟨hf.symm, hf8⟩

end Sys2Proof.Settled

/-!
PROOFS. ENC8 on real values (R115, R117): a magnitude flushes below `2^-7`, saturates from `2^8` on, and in between lies
in the band of exactly one field pair `{b, f}`.
-/
namespace Sys2Proof.Machine

/-! ### The bands of R117 -/

/-- R117: a magnitude that ENC8 gives the fields `{b, f}` of a normal byte. -/
structure InBand (b f : Nat) (a : Rat) : Prop where
  one_le : 1 ≤ b
  le_fifteen : b ≤ 15
  mant_lt : f < 8
  lower : (8 + f : Rat) * (2 : Rat) ^ ((b : Int) - 11) ≤ a
  upper : a < (9 + f : Rat) * (2 : Rat) ^ ((b : Int) - 11)

/-- Eight steps of a band's width are the binade's lower end. -/
theorem eight_mul_zpow (k : Int) : (8 : Rat) * (2 : Rat) ^ (k - 11) = (2 : Rat) ^ (k - 8) := by
  rw [show k - 8 = 3 + (k - 11) by ring, zpow_add₀ two_ne_zero]
  norm_num

/-- Every band of `b` lies in the binade from `2^(b - 8)`. -/
theorem InBand.binade {b f : Nat} {a : Rat} (h : InBand b f a) :
    (2 : Rat) ^ ((b : Int) - 8) ≤ a ∧ a < (2 : Rat) ^ ((b : Int) - 7) := by
  have hw := two_zpow_pos ((b : Int) - 11)
  have hf : (f : Rat) + 1 ≤ 8 := by exact_mod_cast h.mant_lt
  rw [show (b : Int) - 7 = (b : Int) - 8 + 1 by ring, zpow_add_one₀ two_ne_zero, ← eight_mul_zpow]
  refine ⟨le_trans ?_ h.lower, h.upper.trans_le ?_⟩
  · exact mul_le_mul_of_nonneg_right (le_add_of_nonneg_right f.cast_nonneg) hw.le
  · rw [mul_right_comm]
    exact mul_le_mul_of_nonneg_right (by linarith) hw.le

theorem InBand.bounds {b f : Nat} {a : Rat} (h : InBand b f a) :
    (2 : Rat) ^ (-7 : Int) ≤ a ∧ a < (2 : Rat) ^ (8 : Int) := by
  obtain ⟨hle, hlt⟩ := h.binade
  have h1 := h.one_le
  have h15 := h.le_fifteen
  exact ⟨(zpow_le_zpow_right₀ one_le_two (by omega)).trans hle,
    hlt.trans_le (zpow_le_zpow_right₀ one_le_two (by omega))⟩

/-- R119: along the bands the fields rise with the magnitude. -/
theorem InBand.mono {b f b' f' : Nat} {a a' : Rat} (h : InBand b f a) (h' : InBand b' f' a') (hle : a ≤ a') :
    b * 8 + f ≤ b' * 8 + f' := by
  have hf := h.mant_lt
  have hbinade : (b : Int) - 8 < (b' : Int) - 7 :=
    (zpow_lt_zpow_iff_right₀ (one_lt_two : (1 : Rat) < 2)).mp (h.binade.1.trans_lt (hle.trans_lt h'.binade.2))
  obtain hb | rfl : b < b' ∨ b = b' := by omega
  · omega
  · have hlt := lt_of_mul_lt_mul_right (h.lower.trans_lt (hle.trans_lt h'.upper)) (two_zpow_pos _).le
    have : 8 + f < 9 + f' := by exact_mod_cast hlt
    omega

/-- R117: in the binade of `E` the fields are `E + 8` and the four leading bits less the first. -/
theorem exists_inBand_of_binade {a : Rat} {E : Int} (h7 : (2 : Rat) ^ (-7 : Int) ≤ a) (h8 : a < (2 : Rat) ^ (8 : Int))
    (hle : (2 : Rat) ^ E ≤ a) (hlt : a < (2 : Rat) ^ (E + 1)) :
    ∃ b f : Nat, (b : Int) = E + 8 ∧ (8 + f : Int) = ⌊a * (2 : Rat) ^ (3 - E)⌋ ∧ InBand b f a := by
  have hlo : -7 < E + 1 := (zpow_lt_zpow_iff_right₀ (one_lt_two : (1 : Rat) < 2)).mp (h7.trans_lt hlt)
  have hhi : E < 8 := (zpow_lt_zpow_iff_right₀ (one_lt_two : (1 : Rat) < 2)).mp (hle.trans_lt h8)
  have hw := two_zpow_pos (E - 3)
  have hscale : a * (2 : Rat) ^ (3 - E) = a / (2 : Rat) ^ (E - 3) := by
    rw [div_eq_mul_inv, ← zpow_neg, neg_sub]
  have hE : (2 : Rat) ^ E = 8 * (2 : Rat) ^ (E - 3) := by
    rw [show E - 3 = E + 8 - 11 by ring, eight_mul_zpow, add_sub_cancel_right]
  rw [zpow_add_one₀ two_ne_zero] at hlt
  have hn8 : 8 ≤ ⌊a * (2 : Rat) ^ (3 - E)⌋ := by
    rw [Int.le_floor, hscale, le_div_iff₀ hw, Int.cast_ofNat, ← hE]
    exact hle
  have hn16 : ⌊a * (2 : Rat) ^ (3 - E)⌋ < 16 := by
    rw [Int.floor_lt, hscale, div_lt_iff₀ hw]
    push_cast
    linarith
  obtain ⟨b, hb⟩ := Int.eq_ofNat_of_zero_le (show 0 ≤ E + 8 by omega)
  obtain ⟨f, hf⟩ := Int.eq_ofNat_of_zero_le (sub_nonneg.mpr hn8)
  have hfloor : (8 + f : Int) = ⌊a * (2 : Rat) ^ (3 - E)⌋ := by omega
  obtain ⟨hfl, hfu⟩ := Int.floor_eq_iff.mp hfloor.symm
  rw [hscale] at hfl hfu
  push_cast at hfl hfu
  refine ⟨b, f, hb.symm, hfloor, by omega, by omega, by omega, ?_, ?_⟩ <;>
    rw [show (b : Int) - 11 = E - 3 by omega]
  · exact (le_div_iff₀ hw).mp hfl
  · exact (div_lt_iff₀ hw).mp (by linarith)

/-- R117: a magnitude flushes, lies in a band, or saturates. -/
theorem magnitude_cases (a : Rat) :
    a < (2 : Rat) ^ (-7 : Int) ∨ (∃ b f, InBand b f a) ∨ (2 : Rat) ^ (8 : Int) ≤ a := by
  rcases lt_or_ge a ((2 : Rat) ^ (-7 : Int)) with h7 | h7
  · exact .inl h7
  rcases lt_or_ge a ((2 : Rat) ^ (8 : Int)) with h8 | h8
  · obtain ⟨E, hle, hlt⟩ := exists_mem_Ico_zpow ((two_zpow_pos _).trans_le h7) (one_lt_two : (1 : Rat) < 2)
    obtain ⟨b, f, -, -, hband⟩ := exists_inBand_of_binade h7 h8 hle hlt
    exact .inr (.inl ⟨b, f, hband⟩)
  · exact .inr (.inr h8)

/-! ### ENC8 of an exact value -/

/-- R205 for a finite value: zero and underflow flush, overflow saturates, the rest takes the two computed fields. -/
theorem encR_eq (adj : ExpAdjust) (r : Exact) : encR adj r =
    if r.isZero then 0x00#8
    else if biasedExp adj r.abs ≤ 0 then 0x00#8
    else if 16 ≤ biasedExp adj r.abs then saturated r.isNeg
    else packByte r.isNeg (biasedExp adj r.abs).toNat (mantissaField r.abs) := by
  simp only [encR, encodeValue, rangeCase]
  split_ifs <;> rfl

theorem Exact.isNeg_eq (r : Exact) : r.isNeg = decide (r.toRat < 0) := by
  rw [Bool.eq_iff_iff, Exact.isNeg_iff, decide_eq_true_eq]

/-- A value of positive magnitude is no zero. -/
theorem Exact.nonzero_of_abs_pos {r : Exact} (h : 0 < |r.toRat|) : r.num ≠ 0 ∧ r.isZero = false := by
  have hz : r.isZero = false := Bool.eq_false_iff.mpr fun hz => abs_pos.mp h (r.isZero_iff.mp hz)
  exact ⟨of_decide_eq_false hz, hz⟩

/-- R105: a magnitude below `2^-7` flushes. -/
theorem encR_of_small {r : Exact} (h : |r.toRat| < (2 : Rat) ^ (-7 : Int)) :
    encR Config.encodeExpAdjust r = 0x00#8 := by
  rw [encR_eq]
  by_cases hz : r.isZero = true
  · rw [if_pos hz]
  · rw [if_neg hz, if_pos ((biasedExp_nonpos_iff fun hn => hz (decide_eq_true hn)).mpr h)]

/-- R106: a magnitude from `2^8` on saturates. -/
theorem encR_of_large {r : Exact} (h : (2 : Rat) ^ (8 : Int) ≤ |r.toRat|) :
    encR Config.encodeExpAdjust r = packByte (decide (r.toRat < 0)) 15 0 := by
  obtain ⟨hnum, hz⟩ := Exact.nonzero_of_abs_pos ((two_zpow_pos 8).trans_le h)
  have hover := (biasedExp_ge_sixteen_iff hnum).mpr h
  rw [encR_eq, if_neg (Bool.eq_false_iff.mp hz), if_neg (by omega), if_pos hover, r.isNeg_eq, saturated]

/-- R117: a magnitude of the band of `{b, f}` gets these fields. -/
theorem encR_of_inBand {r : Exact} {b f : Nat} (h : InBand b f |r.toRat|) :
    encR Config.encodeExpAdjust r = packByte (decide (r.toRat < 0)) b f := by
  have h1 := h.one_le
  have h15 := h.le_fifteen
  have hlower := h.lower
  have hupper := h.upper
  have hp := two_zpow_pos ((b : Int) - 8)
  obtain ⟨hle, hlt⟩ := h.binade
  obtain ⟨-, hz⟩ := Exact.nonzero_of_abs_pos (hp.trans_le hle)
  have hw : (2 : Rat) ^ ((b : Int) - 11) = (2 : Rat) ^ ((b : Int) - 8) / 8 := by
    rw [← eight_mul_zpow, mul_div_cancel_left₀ _ (by norm_num)]
  have hy : r.abs.toRat = |r.toRat| / (2 : Rat) ^ ((b : Int) - 8) * (2 : Rat) ^ ((b : Int) - 8) := by
    rw [div_mul_cancel₀ _ hp.ne', Exact.toRat_abs]
  rw [show (b : Int) - 7 = 1 + ((b : Int) - 8) by ring, zpow_one_add₀ two_ne_zero] at hlt
  obtain ⟨hm, he⟩ := Exact.frexp_of_toRat_eq hy ((one_le_div₀ hp).mpr hle) ((div_lt_iff₀ hp).mpr hlt)
  have hexp : biasedExp Config.encodeExpAdjust r.abs = b := by rw [biasedExp_eq, he]; ring
  have hmant : mantissaField r.abs = f := by
    refine mantissaField_of_floor h.mant_lt (Int.floor_eq_iff.mpr ?_)
    rw [hm, Int.cast_natCast]
    have hlow : (8 + f : Rat) / 8 ≤ |r.toRat| / (2 : Rat) ^ ((b : Int) - 8) := by
      rw [le_div_iff₀ hp]; rw [hw] at hlower; linarith
    have hupp : |r.toRat| / (2 : Rat) ^ ((b : Int) - 8) < (9 + f : Rat) / 8 := by
      rw [div_lt_iff₀ hp]; rw [hw] at hupper; linarith
    constructor <;> linarith
  rw [encR_eq, if_neg (Bool.eq_false_iff.mp hz), hexp, if_neg (by omega), if_neg (by omega), hmant, r.isNeg_eq,
    Int.toNat_natCast]

/-! ### ENC8 of a native pattern -/

/-- R115: ENC8 of a pattern with a real value is the encoding of that value, whatever the draw. -/
theorem enc_eq_encR {x : Native} {q : Rat} (h : ratOf x = some q) :
    ∃ r : Exact, r.toRat = q ∧ ∀ d, enc Config.encodeExpAdjust x d = encR Config.encodeExpAdjust r := by
  cases hv : val x with
  | nan => simp [ratOf, hv] at h
  | infinity n => simp [ratOf, hv] at h
  | zero n =>
    rw [ratOf_of_zero hv, Option.some.injEq] at h
    exact ⟨.ofInt 0, by simp [← h], fun d => by rw [enc, hv]; rfl⟩
  | finite r =>
    rw [ratOf_of_finite hv, Option.some.injEq] at h
    exact ⟨r, h, fun d => by rw [enc, hv]; exact encodeValue_draw _ _ Value.noConfusion _ _⟩

theorem enc_of_small {x : Native} {q : Rat} (hx : ratOf x = some q) (h : |q| < (2 : Rat) ^ (-7 : Int)) (d : Byte) :
    enc Config.encodeExpAdjust x d = 0x00#8 := by
  obtain ⟨r, rfl, henc⟩ := enc_eq_encR hx
  rw [henc, encR_of_small h]

theorem enc_of_inBand {x : Native} {q : Rat} {b f : Nat} (hx : ratOf x = some q) (h : InBand b f |q|) (d : Byte) :
    enc Config.encodeExpAdjust x d = packByte (decide (q < 0)) b f := by
  obtain ⟨r, rfl, henc⟩ := enc_eq_encR hx
  rw [henc, encR_of_inBand h]

theorem enc_of_large {x : Native} {q : Rat} (hx : ratOf x = some q) (h : (2 : Rat) ^ (8 : Int) ≤ |q|) (d : Byte) :
    enc Config.encodeExpAdjust x d = packByte (decide (q < 0)) 15 0 := by
  obtain ⟨r, rfl, henc⟩ := enc_eq_encR hx
  rw [henc, encR_of_large h]

/-- R110: an infinity saturates with its sign. -/
theorem enc_of_infinity {x : Native} {neg : Bool} (hx : val x = .infinity neg) (d : Byte) :
    enc Config.encodeExpAdjust x d = packByte neg 15 0 := by
  rw [enc, hx]
  rfl

/-- R117: everything ENC8 can do with a real value. -/
theorem enc_cases {x : Native} {q : Rat} (hx : ratOf x = some q) (d : Byte) :
    (|q| < (2 : Rat) ^ (-7 : Int) ∧ enc Config.encodeExpAdjust x d = 0x00#8) ∨
    (∃ b f, InBand b f |q| ∧ enc Config.encodeExpAdjust x d = packByte (decide (q < 0)) b f) ∨
    ((2 : Rat) ^ (8 : Int) ≤ |q| ∧ enc Config.encodeExpAdjust x d = packByte (decide (q < 0)) 15 0) := by
  rcases magnitude_cases |q| with h | ⟨b, f, h⟩ | h
  · exact .inl ⟨h, enc_of_small hx h d⟩
  · exact .inr (.inl ⟨b, f, h, enc_of_inBand hx h d⟩)
  · exact .inr (.inr ⟨h, enc_of_large hx h d⟩)

/-- R65: a pattern that is no NaN has a real value or is an infinity. -/
theorem ratOf_or_infinity {x : Native} (h : isNaN x = false) :
    (∃ q, ratOf x = some q) ∨ ∃ neg, val x = .infinity neg := by
  cases hv : val x with
  | nan => rw [(val_eq_nan_iff x).mp hv] at h; cases h
  | infinity n => exact .inr ⟨n, rfl⟩
  | zero n => exact .inl ⟨0, ratOf_of_zero hv⟩
  | finite r => exact .inl ⟨_, ratOf_of_finite hv⟩

/-! ### Execution of ENC8 -/

theorem exec_enc8_of_not_isNaN {x : Native} (h : isNaN x = false) (s : State) (d : Byte) :
    exec (.enc8 x) s = .next (s.driveEncoder (enc Config.encodeExpAdjust x d)) := by
  rw [exec_enc8, enc_draw _ x h _ d]
  simp [drawsTaken, h, State.takeDraws_zero]

/-- R111 with log 4: ENC8 of a NaN drives the next draw and uses it up. -/
theorem exec_enc8_of_isNaN {x : Native} (h : isNaN x = true) (s : State) :
    exec (.enc8 x) s = .next (({ s with draws := s.draws + 1 } : State).driveEncoder (Config.nanDraw s.draws)) := by
  rw [exec_enc8, enc_of_isNaN _ x h]
  simp [drawsTaken, h, State.takeDraws, State.nextDraw]

/-- In every state ENC8 of a pattern with a real value drives the byte every draw gives. -/
theorem exec_enc8_of_enc {x : Native} {q : Rat} (hx : ratOf x = some q) {v : Byte}
    (h : ∀ d, enc Config.encodeExpAdjust x d = v) (s : State) : exec (.enc8 x) s = .next (s.driveEncoder v) := by
  rw [exec_enc8_of_not_isNaN (isNaN_of_ratOf hx) s 0x00#8, h]

end Sys2Proof.Machine

namespace Sys2Proof.Settled
open Sys2Proof.Machine

/-- Settles O1: `exec_enc8_of_not_isNaN` and `exec_enc8_of_isNaN` for ENC8; the other three arms are their drives. -/
theorem everyOperationCompletesWithItsRule : Obligations.EveryOperationCompletesWithItsRule :=
  ⟨fun s _ h d => exec_enc8_of_not_isNaN h s d, fun s _ h => exec_enc8_of_isNaN h s, fun s a => exec_dec8 a s,
    fun s a b => exec_add8 a b s, fun s a b => exec_mul8 a b s⟩

/-- Settles O8: these fields are a NaN's, which is its own draw. -/
theorem enc8NaNTakesAFreshDraw : Obligations.Enc8NaNTakesAFreshDraw := by
  intro s x he hf
  have hx : isNaN x = true := by simp [isNaN, he, hf]
  exact ⟨_, exec_enc8_of_isNaN hx s, State.outputOf_driveEncoder _ _, State.driveEncoder_draws _ _⟩

/-- Settles O11: the two comparisons of `biasedExp`, and the flush below `2^-7`. -/
theorem underflowFlushesToZero : Obligations.UnderflowFlushesToZero := by
  refine ⟨fun r hr => ⟨?_, biasedExp_nonpos_iff hr⟩, fun s x q hx h =>
    exec_enc8_of_enc hx (enc_of_small hx h) s⟩
  rw [biasedExp_eq]
  omega

/-- Settles O18: the magnitude alone decides between flushing, a band and saturation. -/
theorem enc8DependsOnTheValueAlone : Obligations.Enc8DependsOnTheValueAlone := by
  intro x x' q d d' hx hx'
  rcases magnitude_cases |q| with h | ⟨b, f, h⟩ | h
  · rw [enc_of_small hx h, enc_of_small hx' h]
  · rw [enc_of_inBand hx h, enc_of_inBand hx' h]
  · rw [enc_of_large hx h, enc_of_large hx' h]

/-- Settles O13: `enc_of_small`, `enc_of_inBand` and `enc_of_large`, the fields of a binade being those of its band. -/
theorem enc8ByMagnitude : Obligations.Enc8ByMagnitude := by
  refine ⟨fun s x q E hx hle hlt => exec_enc8_of_enc hx (fun d => ?_) s, fun s x hx => ?_, fun s x neg hx => ?_,
    fun s x hx => exec_enc8_of_isNaN ((val_eq_nan_iff x).mp hx) s, fun s x q b f hx h1 h15 hf hlo hup =>
      exec_enc8_of_enc hx (enc_of_inBand hx ⟨h1, h15, hf, hlo, hup⟩) s⟩
  · split_ifs with h7 h8
    · exact enc_of_small hx h7 d
    · obtain ⟨b, f, hb, hf, hband⟩ := exists_inBand_of_binade (not_lt.mp h7) h8 hle hlt
      rw [enc_of_inBand hx hband, ← hb, ← hf, add_sub_cancel_left, Int.toNat_natCast, Int.toNat_natCast]
    · exact enc_of_large hx (not_lt.mp h8) d
  · refine exec_enc8_of_enc hx (enc_of_small hx ?_) s
    rw [abs_zero]
    exact two_zpow_pos _
  · have hn : isNaN x = false := Bool.eq_false_iff.mpr fun hn => by
      rw [(val_eq_nan_iff x).mpr hn] at hx
      cases hx
    rw [exec_enc8_of_not_isNaN hn s 0x00#8, enc_of_infinity hx]

end Sys2Proof.Settled

/-!
PROOFS. ENC8 and DEC8 together: the value of a byte (R134), the native pattern of either format with a byte's fields
(R137), and DEC8 as that pattern one exponent higher.
-/
namespace Sys2Proof.Machine

/-! ### A value with a sign -/

theorem abs_signed (s : Bool) {v : Rat} (hv : 0 < v) : |(if s then -1 else 1) * v| = v := by
  cases s <;> simp [abs_of_pos hv]

theorem signed_neg_iff (s : Bool) {v : Rat} (hv : 0 < v) : (if s then -1 else 1) * v < 0 ↔ s = true := by
  cases s <;> simp [hv, hv.le]

theorem decide_signed_neg (s : Bool) {v : Rat} (hv : 0 < v) : decide ((if s then -1 else 1) * v < 0) = s := by
  rw [Bool.eq_iff_iff, decide_eq_true_eq, signed_neg_iff s hv]

theorem signed_pos_iff (s : Bool) {v : Rat} (hv : 0 < v) : 0 < (if s then -1 else 1) * v ↔ s = false := by
  cases s <;> simp [hv, hv.le]

/-! ### The value of a byte -/

@[simp] theorem ratOfByte_zero : ratOfByte 0x00#8 = 0 := by
  simp [ratOfByte, decR]

/-- R134 in units of the last mantissa bit. -/
theorem ratOfByte_of_ne_zero {p : Byte} (hp : p ≠ 0x00#8) :
    ratOfByte p = (if signOf p then -1 else 1) * ((8 + mantOf p) * (2 : Rat) ^ ((expOf p : Int) - 10)) := by
  rw [ratOfByte, decR, if_neg hp, Exact.toRat_withSign, Exact.toRat_scale, significand, Exact.toRat,
    show (expOf p : Int) - 10 = -3 + (expOf p - 7) by ring, zpow_add₀ two_ne_zero]
  push_cast
  ring

theorem packByte_ne_zero (s : Bool) {b f : Nat} (hb : 1 ≤ b) (h15 : b ≤ 15) : packByte s b f ≠ 0x00#8 := by
  intro h
  have hexp : b = 0 := (expOf_packByte s (by omega) f).symm.trans (congrArg expOf h)
  omega

/-- R134 for a normal byte, by its fields. -/
theorem ratOfByte_packByte (s : Bool) {b f : Nat} (hb : 1 ≤ b) (h15 : b ≤ 15) (hf : f < 8) :
    ratOfByte (packByte s b f) = (if s then -1 else 1) * ((8 + f) * (2 : Rat) ^ ((b : Int) - 10)) := by
  rw [ratOfByte_of_ne_zero (packByte_ne_zero s hb h15), signOf_packByte, expOf_packByte s (by omega),
    mantOf_packByte s b hf]

/-! ### The fields of a packed native pattern -/

/-- The fields put side by side come back. -/
theorem extracted_appended_fields (s : Bool) {e p E F : Nat} (hE : E < 2 ^ e) (hF : F < 2 ^ p) :
    (BitVec.ofBool s ++ BitVec.ofNat e E ++ BitVec.ofNat p F).getLsbD (p + e) = s ∧
    ((BitVec.ofBool s ++ BitVec.ofNat e E ++ BitVec.ofNat p F).extractLsb' p e).toNat = E ∧
    ((BitVec.ofBool s ++ BitVec.ofNat e E ++ BitVec.ofNat p F).extractLsb' 0 p).toNat = F := by
  refine ⟨?_, ?_, ?_⟩
  · rw [BitVec.getLsbD_append, BitVec.getLsbD_append]
    simp
  · rw [BitVec.extractLsb'_append_eq_of_le (le_refl p), Nat.sub_self, BitVec.extractLsb'_append_eq_right,
      BitVec.toNat_ofNat, Nat.mod_eq_of_lt hE]
  · rw [BitVec.extractLsb'_append_eq_right, BitVec.toNat_ofNat, Nat.mod_eq_of_lt hF]

theorem native_fields_packNative (fmt : NativeFmt) (s : Bool) {E F : Nat} (hE : E ≤ nativeEmax fmt)
    (hF : F < 2 ^ fracBits fmt) :
    nativeSign (packNative fmt s E F) = s ∧ nativeExp (packNative fmt s E F) = E ∧
      nativeFrac (packNative fmt s E F) = F := by
  cases fmt with
  | binary32 => exact extracted_appended_fields (e := 8) (p := 23) s (Nat.lt_succ_of_le hE) hF
  | binary64 => exact extracted_appended_fields (e := 11) (p := 52) s (Nat.lt_succ_of_le hE) hF

/-! ### Native patterns with a byte's fields -/

/-- R113, R114: the highest native exponent field that ENC8 flushes. -/
def flushExp : NativeFmt → Nat
  | .binary32 => 119
  | .binary64 => 1015

theorem nativeBias_eq (fmt : NativeFmt) : nativeBias fmt = flushExp fmt + 8 := by cases fmt <;> rfl

theorem flushExp_pos (fmt : NativeFmt) : 0 < flushExp fmt := by cases fmt <;> decide

theorem flushExp_add_lt_nativeEmax (fmt : NativeFmt) : flushExp fmt + 16 < nativeEmax fmt := by cases fmt <;> decide

/-- The three leading fraction bits, in the place the format gives them. -/
theorem two_pow_fracBits (fmt : NativeFmt) : 2 ^ fracBits fmt = 8 * 2 ^ (fracBits fmt - 3) := by cases fmt <;> rfl

/-- The pattern of the band of `{b, f}` with the fewest bits: the mantissa on top of the fraction field. -/
def bandPattern (fmt : NativeFmt) (s : Bool) (b f : Nat) : Native :=
  packNative fmt s (flushExp fmt + b) (f * 2 ^ (fracBits fmt - 3))

theorem bandPattern_frac_lt (fmt : NativeFmt) {f : Nat} (hf : f < 8) :
    f * 2 ^ (fracBits fmt - 3) < 2 ^ fracBits fmt := by
  rw [two_pow_fracBits]
  exact Nat.mul_lt_mul_of_pos_right hf (Nat.two_pow_pos _)

/-- The three leading fraction bits count eighths. -/
theorem bandPattern_frac_div (fmt : NativeFmt) (f : Nat) :
    ((f * 2 ^ (fracBits fmt - 3) : Nat) : Rat) / (2 : Rat) ^ fracBits fmt = f / 8 := by
  rw [show (2 : Rat) ^ fracBits fmt = 8 * 2 ^ (fracBits fmt - 3) by exact_mod_cast two_pow_fracBits fmt, Nat.cast_mul,
    Nat.cast_pow, Nat.cast_ofNat, mul_div_mul_right _ _ (by positivity)]

/-- R65: such a pattern has the lowest value of its band. -/
theorem ratOf_bandPattern (fmt : NativeFmt) (s : Bool) {b f : Nat} (hb : b ≤ 16) (hf : f < 8) :
    ratOf (bandPattern fmt s b f) = some ((if s then -1 else 1) * ((8 + f) * (2 : Rat) ^ ((b : Int) - 11))) := by
  have hmax := flushExp_add_lt_nativeEmax fmt
  have hpos := flushExp_pos fmt
  obtain ⟨hs, he, hfr⟩ :=
    native_fields_packNative fmt s (E := flushExp fmt + b) (by omega) (bandPattern_frac_lt fmt hf)
  have h := ratOf_of_normal (w := bandPattern fmt s b f) (by rw [bandPattern, he]; omega)
    (by rw [bandPattern, he, packNative_fmt]; omega)
  rw [bandPattern, hs, he, hfr, packNative_fmt, bandPattern_frac_div, nativeBias_eq] at h
  rw [bandPattern, h, Nat.cast_add, add_sub_add_left_eq_sub, ← eight_mul_zpow, mul_assoc, ← mul_assoc (1 + _ : Rat)]
  congr 3
  ring

/-- R137: DEC8 of a nonzero byte is the pattern of its fields, one exponent higher. -/
theorem dec_eq_bandPattern (fmt : NativeFmt) {p : Byte} (hp : p ≠ 0x00#8) :
    dec fmt p = bandPattern fmt (signOf p) (expOf p + 1) (mantOf p) := by
  refine bitsNative_of_normal (bandPattern_frac_lt fmt (mantOf_lt p)) ?_
  have h := ratOfByte_of_ne_zero hp
  rw [ratOfByte] at h
  rw [h, bandPattern_frac_div, nativeBias_eq, Nat.cast_add, add_sub_add_left_eq_sub, mul_assoc,
    show ((expOf p + 1 : Nat) : Int) - 8 = (expOf p : Int) + 1 - 8 by push_cast; ring, ← eight_mul_zpow,
    show (expOf p : Int) + 1 - 11 = expOf p - 10 by ring, ← mul_assoc (1 + _ : Rat)]
  congr 2
  ring

/-- R134: the pattern DEC8 drives has the value of the byte, in either format. -/
theorem ratOf_dec (fmt : NativeFmt) (p : Byte) : ratOf (dec fmt p) = some (ratOfByte p) := by
  by_cases hp : p = 0x00#8
  · rw [hp, ratOfByte_zero]
    exact ratOf_of_zero (n := false) (by cases fmt <;> decide)
  · have hb := expOf_lt p
    rw [dec_eq_bandPattern fmt hp, ratOf_bandPattern fmt _ (by omega) (mantOf_lt p), ratOfByte_of_ne_zero hp,
      Nat.cast_add, Nat.cast_one, show (expOf p : Int) + 1 - 11 = expOf p - 10 by ring]

end Sys2Proof.Machine

/-!
PROOFS. The bytes ENC8 gives (R119 to R121): their order, their signs, their decoded values, and a pattern for each.
-/
namespace Sys2Proof.Machine

/-- The exponent and mantissa fields, without the sign. -/
theorem packByte_toNat_mod (s : Bool) {b f : Nat} (h15 : b ≤ 15) (hf : f < 8) :
    (packByte s b f).toNat % 128 = b * 8 + f := by
  rw [packByte_toNat s (by omega) hf]
  split <;> omega

/-- A normal byte is no exponent-zero byte. -/
theorem not_exponentZero_packByte (s : Bool) {b : Nat} (f : Nat) (hb : 1 ≤ b) (h15 : b ≤ 15) :
    ¬ exponentZero (packByte s b f) := by
  rintro ⟨h, -⟩
  rw [expOf_packByte s (by omega)] at h
  omega

/-- R121: all that ENC8 of a pattern that is no NaN can give: 0x00, or a normal byte. -/
theorem enc_zero_or_normal {x : Native} (hx : isNaN x = false) (d : Byte) :
    enc Config.encodeExpAdjust x d = 0x00#8 ∨
      ∃ s b f, 1 ≤ b ∧ b ≤ 15 ∧ enc Config.encodeExpAdjust x d = packByte s b f := by
  rcases ratOf_or_infinity hx with ⟨q, hq⟩ | ⟨neg, hneg⟩
  · rcases enc_cases hq d with ⟨-, h⟩ | ⟨b, f, hb, h⟩ | ⟨-, h⟩
    · exact .inl h
    · exact .inr ⟨_, b, f, hb.one_le, hb.le_fifteen, h⟩
    · exact .inr ⟨_, 15, 0, by decide, le_rfl, h⟩
  · exact .inr ⟨neg, 15, 0, by decide, le_rfl, enc_of_infinity hneg d⟩

theorem not_exponentZero_enc {x : Native} (hx : isNaN x = false) (d : Byte) :
    ¬ exponentZero (enc Config.encodeExpAdjust x d) := by
  rcases enc_zero_or_normal hx d with h | ⟨s, b, f, hb, h15, h⟩ <;> rw [h]
  · exact fun hz => hz.2 rfl
  · exact not_exponentZero_packByte s f hb h15

/-- R121: ENC8 gives 0x00 to magnitudes below `2^-7` alone. -/
theorem enc_eq_zero_iff {x : Native} {q : Rat} (hx : ratOf x = some q) (d : Byte) :
    enc Config.encodeExpAdjust x d = 0x00#8 ↔ |q| < (2 : Rat) ^ (-7 : Int) := by
  refine ⟨fun h => ?_, fun h => enc_of_small hx h d⟩
  rcases enc_cases hx d with ⟨hs, -⟩ | ⟨b, f, hb, he⟩ | ⟨-, he⟩
  · exact hs
  · exact absurd (he ▸ h) (packByte_ne_zero _ hb.one_le hb.le_fifteen)
  · exact absurd (he ▸ h) (packByte_ne_zero _ (by decide) le_rfl)

/-- R103: a byte with the sign of `q`, by the two signs. -/
theorem packByte_decide (q : Rat) (b f : Nat) :
    packByte (decide (q < 0)) b f = if q < 0 then packByte true b f else packByte false b f := by
  split_ifs with hq
  · rw [decide_eq_true hq]
  · rw [decide_eq_false hq]

/-- R62: the saturation pattern decodes to 256, with its sign. -/
theorem ratOfByte_saturated (s : Bool) : ratOfByte (packByte s 15 0) = if s then -256 else 256 := by
  rw [ratOfByte_packByte s (by decide) le_rfl (by decide)]
  cases s <;> norm_num

/-- R62: the largest magnitude decodes to 480, with its sign. -/
theorem ratOfByte_largest (s : Bool) : ratOfByte (packByte s 15 7) = if s then -480 else 480 := by
  rw [ratOfByte_packByte s (by decide) le_rfl (by decide)]
  cases s <;> norm_num

/-- R117: the band of 0x7F is `[240, 256)`. -/
theorem inBand_top {a : Rat} (hle : 240 ≤ a) (hlt : a < 256) : InBand 15 7 a :=
  ⟨by decide, le_rfl, by decide, by norm_num; exact hle, by norm_num; exact hlt⟩

/-- R120: DEC8 of a normal byte with the sign of `q` has that sign. -/
theorem ratOfByte_packByte_sign (q : Rat) {b f : Nat} (hb : 1 ≤ b) (h15 : b ≤ 15) (hf : f < 8) :
    (0 < ratOfByte (packByte (decide (q < 0)) b f) ↔ 0 ≤ q) ∧
      (ratOfByte (packByte (decide (q < 0)) b f) < 0 ↔ q < 0) := by
  have hv : (0 : Rat) < (8 + f) * (2 : Rat) ^ ((b : Int) - 10) := mul_pos (by positivity) (two_zpow_pos _)
  rw [ratOfByte_packByte _ hb h15 hf, signed_pos_iff _ hv, signed_neg_iff _ hv]
  simp

/-- A sign test at a threshold `t`, for a value of at least that magnitude. -/
theorem sign_iff_of_le_abs {q t : Rat} (ht : 0 < t) (h : t ≤ |q|) :
    (0 ≤ q ↔ t ≤ q) ∧ (q < 0 ↔ q ≤ -t) := by
  rcases le_abs.mp h with h | h
  · exact ⟨iff_of_true (by linarith) h, iff_of_false (by linarith) (by linarith)⟩
  · exact ⟨iff_of_false (by linarith) (by linarith), iff_of_true (by linarith) (by linarith)⟩

/-- R120: DEC8 of ENC8 keeps a sign exactly from magnitude `2^-7` on. -/
theorem ratOfByte_enc_sign {x : Native} {q : Rat} (hx : ratOf x = some q) (d : Byte) :
    (0 < ratOfByte (enc Config.encodeExpAdjust x d) ↔ (2 : Rat) ^ (-7 : Int) ≤ q) ∧
    (ratOfByte (enc Config.encodeExpAdjust x d) < 0 ↔ q ≤ -(2 : Rat) ^ (-7 : Int)) := by
  have ht := two_zpow_pos (-7)
  rcases enc_cases hx d with ⟨hs, he⟩ | ⟨b, f, hb, he⟩ | ⟨hl, he⟩
  · obtain ⟨hlo, hhi⟩ := abs_lt.mp hs
    rw [he, ratOfByte_zero]
    exact ⟨iff_of_false (lt_irrefl 0) hhi.not_ge, iff_of_false (lt_irrefl 0) hlo.not_ge⟩
  · obtain ⟨hpos, hneg⟩ := ratOfByte_packByte_sign q hb.one_le hb.le_fifteen hb.mant_lt
    obtain ⟨hpos', hneg'⟩ := sign_iff_of_le_abs ht hb.bounds.1
    rw [he]
    exact ⟨hpos.trans hpos', hneg.trans hneg'⟩
  · obtain ⟨hpos, hneg⟩ := ratOfByte_packByte_sign q (b := 15) (f := 0) (by decide) le_rfl (by decide)
    obtain ⟨hpos', hneg'⟩ := sign_iff_of_le_abs ht ((zpow_le_zpow_right₀ one_le_two (by decide)).trans hl)
    rw [he]
    exact ⟨hpos.trans hpos', hneg.trans hneg'⟩

/-- The lower end of a band lies in it. -/
theorem inBand_lower {b f : Nat} (hb : 1 ≤ b) (h15 : b ≤ 15) (hf : f < 8) :
    InBand b f ((8 + f : Rat) * (2 : Rat) ^ ((b : Int) - 11)) :=
  ⟨hb, h15, hf, le_rfl, mul_lt_mul_of_pos_right (by linarith) (two_zpow_pos _)⟩

/-- R121: ENC8 gives back the fields of a band's lowest pattern. -/
theorem enc_bandPattern (fmt : NativeFmt) (s : Bool) {b f : Nat} (hb : 1 ≤ b) (h15 : b ≤ 15) (hf : f < 8)
    (d : Byte) : enc Config.encodeExpAdjust (bandPattern fmt s b f) d = packByte s b f := by
  have hband := inBand_lower hb h15 hf
  have hv := (two_zpow_pos _).trans_le hband.bounds.1
  rw [enc_of_inBand (ratOf_bandPattern fmt s (by omega) hf) ((abs_signed s hv).symm ▸ hband),
    decide_signed_neg s hv]

/-- R119: below 256 the fields never fall while the magnitude rises. -/
theorem enc_mono_below {x x' : Native} {q q' : Rat} (hx : ratOf x = some q) (hx' : ratOf x' = some q') (d : Byte)
    (hle : |q| ≤ |q'|) (h : |q'| < (2 : Rat) ^ (8 : Int)) :
    (enc Config.encodeExpAdjust x d).toNat % 128 ≤ (enc Config.encodeExpAdjust x' d).toNat % 128 := by
  rcases enc_cases hx d with ⟨-, he⟩ | ⟨b, f, hb, he⟩ | ⟨hl, -⟩
  · rw [he]; exact Nat.zero_le _
  · rcases enc_cases hx' d with ⟨hs', -⟩ | ⟨b', f', hb', he'⟩ | ⟨hl', -⟩
    · exact absurd (hb.bounds.1.trans hle) hs'.not_ge
    · rw [he, he', packByte_toNat_mod _ hb.le_fifteen hb.mant_lt, packByte_toNat_mod _ hb'.le_fifteen hb'.mant_lt]
      exact hb.mono hb' hle
    · exact absurd hl' h.not_ge
  · exact absurd (hl.trans hle) h.not_ge

end Sys2Proof.Machine

namespace Sys2Proof.Settled
open Sys2Proof.Machine

/-- Settles O12: the two comparisons of `biasedExp`, the saturation pattern, and the values of three bytes. -/
theorem overflowSaturates : Obligations.OverflowSaturates := by
  refine ⟨fun r hr => ⟨?_, biasedExp_ge_sixteen_iff hr⟩, fun s x q hx h => exec_enc8_of_enc hx (fun d => ?_) s,
    fun fmt => ⟨?_, ?_, ?_⟩⟩
  · rw [biasedExp_eq]
    omega
  · rw [enc_of_large hx h, packByte_decide]
    rfl
  · exact (ratOf_dec fmt _).trans (congrArg some (ratOfByte_saturated false))
  · exact (ratOf_dec fmt _).trans (congrArg some (ratOfByte_saturated true))
  · exact (ratOf_dec fmt _).trans (congrArg some (ratOfByte_largest false))

/-- Settles O14: DEC8 reads a byte's exponent one higher than ENC8 wrote it, so a normal byte comes back as twice its
band's lower end. -/
theorem roundTripDoublesTheTruncation : Obligations.RoundTripDoublesTheTruncation := by
  intro fmt x q d hx
  refine ⟨fun h => ?_, fun E h7 h8 hle hlt => ?_, fun h => ?_⟩ <;> rw [ratOf_dec, Option.some.injEq]
  · rw [enc_of_small hx h, ratOfByte_zero]
  · obtain ⟨b, f, hb, hf, hband⟩ := exists_inBand_of_binade h7 h8 hle hlt
    rw [enc_of_inBand hx hband, ratOfByte_packByte _ hband.one_le hband.le_fifteen hband.mant_lt, ← hf,
      show (b : Int) - 10 = 1 + (E - 3) by omega, zpow_one_add₀ two_ne_zero]
    simp only [decide_eq_true_eq]
    push_cast
    ring
  · rw [enc_of_large hx h, ratOfByte_saturated]
    simp only [decide_eq_true_eq]

/-- Settles O15: the top band and the saturation pattern below it; the bands rise up to 256 and from there on the
fields are one pair. -/
theorem enc8StepsDownOnlyAt256 : Obligations.Enc8StepsDownOnlyAt256 := by
  have h256 : (2 : Rat) ^ (8 : Int) = 256 := by norm_num
  refine ⟨⟨ratOfByte_largest false, ratOfByte_saturated false, ratOfByte_largest true, ratOfByte_saturated true⟩,
    fun x q d hx hle hlt => ?_, fun x q d hx h => ?_, fun x x' q q' d hx hx' _ hle h => ?_⟩
  · rw [enc_of_inBand hx (inBand_top hle hlt), packByte_decide]
    rfl
  · rw [enc_of_large hx (h256 ▸ h), packByte_decide]
    rfl
  · rcases h with h | h
    · exact enc_mono_below hx hx' d hle (h256 ▸ h)
    · rw [enc_of_large hx (h256 ▸ h), enc_of_large hx' (h256 ▸ h.trans hle),
        packByte_toNat_mod _ le_rfl (by decide), packByte_toNat_mod _ le_rfl (by decide)]

/-- Settles O16: a byte other than 0x00 was packed with the sign; 0x80 has exponent 0, which no packed one has. -/
theorem enc8KeepsTheSignOfANonzeroResult : Obligations.Enc8KeepsTheSignOfANonzeroResult := by
  refine ⟨fun x q d hx hne => ?_, fun x neg d hx => ?_, fun x d hx h => ?_, fun x q d hx h => enc_of_small hx h d,
    fun x q d hx => ratOfByte_enc_sign hx d⟩
  · rcases enc_cases hx d with ⟨-, he⟩ | ⟨b, f, -, he⟩ | ⟨-, he⟩
    · exact absurd he hne
    · rw [he]; exact signOf_packByte _ b f
    · rw [he]; exact signOf_packByte _ 15 0
  · rw [enc_of_infinity hx]
    exact signOf_packByte neg 15 0
  · exact not_exponentZero_enc hx d (h ▸ ⟨rfl, by decide⟩)

/-- Settles O17: only 0x00 and normal bytes come out, and each normal byte comes from the lowest pattern of its band. -/
theorem enc8OutputSet : Obligations.Enc8OutputSet := by
  refine ⟨fun x d hx => not_exponentZero_enc hx d, fun x d hx => ⟨fun h => ?_, fun ⟨q, hq, h⟩ =>
    enc_of_small hq h d⟩, fun fmt p hp => ?_⟩
  · rcases ratOf_or_infinity hx with ⟨q, hq⟩ | ⟨neg, hneg⟩
    · exact ⟨q, hq, (enc_eq_zero_iff hq d).mp h⟩
    · exact absurd ((enc_of_infinity hneg d).symm.trans h) (packByte_ne_zero neg (by decide) le_rfl)
  · have hb := expOf_lt p
    have hband := inBand_lower hp (by omega) (mantOf_lt p)
    have hv := (two_zpow_pos _).trans_le hband.bounds.1
    refine ⟨bandPattern fmt (signOf p) (expOf p) (mantOf p), _, packNative_fmt _ _ _ _,
      ratOf_bandPattern fmt _ (by omega) (mantOf_lt p), signed_neg_iff _ hv, (abs_signed _ hv).ge,
      (abs_signed _ hv).trans_lt hband.upper, fun d => ?_⟩
    rw [enc_bandPattern fmt _ hp (by omega) (mantOf_lt p), packByte_fields]

end Sys2Proof.Settled

/-!
PROOFS. ENC8 on the fields of a native pattern (R113, R114): the exponent field alone decides between flushing, a normal
byte and saturation, and the three leading fraction bits are the mantissa.
-/
namespace Sys2Proof.Machine

/-! ### The magnitude of a pattern by its exponent field -/

/-- A fraction field is a fraction. -/
theorem nativeFrac_div_bounds (w : Native) :
    (0 : Rat) ≤ nativeFrac w / (2 : Rat) ^ fracBits w.fmt ∧ (nativeFrac w : Rat) / (2 : Rat) ^ fracBits w.fmt < 1 :=
  ⟨by positivity, (div_lt_one (by positivity)).mpr (by exact_mod_cast nativeFrac_lt w)⟩

/-- R65: a normal pattern's value has its sign and lies in the binade of its exponent field. -/
theorem ratOf_normal_parts {w : Native} (h0 : nativeExp w ≠ 0) (hmax : nativeExp w ≠ nativeEmax w.fmt) :
    ∃ q, ratOf w = some q ∧ decide (q < 0) = nativeSign w ∧
      |q| = (1 + (nativeFrac w : Rat) / (2 : Rat) ^ fracBits w.fmt) *
        (2 : Rat) ^ ((nativeExp w : Int) - flushExp w.fmt - 8) := by
  obtain ⟨hf, -⟩ := nativeFrac_div_bounds w
  have hv := mul_pos (show (0 : Rat) < 1 + nativeFrac w / (2 : Rat) ^ fracBits w.fmt by linarith)
    (two_zpow_pos ((nativeExp w : Int) - flushExp w.fmt - 8))
  refine ⟨_, ratOf_of_normal h0 hmax, ?_, ?_⟩ <;> rw [nativeBias_eq, mul_assoc, ← sub_sub]
  · exact decide_signed_neg _ hv
  · exact abs_signed _ hv

/-- R112: zeros and subnormals are of magnitude below `2^-7`. -/
theorem ratOf_of_exp_zero {w : Native} (h : nativeExp w = 0) :
    ∃ q, ratOf w = some q ∧ |q| < (2 : Rat) ^ (-7 : Int) := by
  by_cases hf : nativeFrac w = 0
  · exact ⟨0, ratOf_of_zero (val_of_zero h hf), by rw [abs_zero]; exact two_zpow_pos _⟩
  · obtain ⟨-, hlt⟩ := nativeFrac_div_bounds w
    have hpos : (0 : Rat) < nativeFrac w / (2 : Rat) ^ fracBits w.fmt :=
      div_pos (by exact_mod_cast Nat.pos_of_ne_zero hf) (by positivity)
    refine ⟨_, ratOf_of_subnormal h hf, ?_⟩
    rw [mul_assoc, abs_signed _ (mul_pos hpos (two_zpow_pos _)), nativeBias_eq]
    exact (mul_lt_of_lt_one_left (two_zpow_pos _) hlt).trans_le (zpow_le_zpow_right₀ one_le_two (by omega))

/-! ### ENC8 by the fields -/

/-- R113, R114: exponent fields up to `flushExp` give 0x00. -/
theorem enc_of_low_exp {w : Native} (h : nativeExp w ≤ flushExp w.fmt) (d : Byte) :
    enc Config.encodeExpAdjust w d = 0x00#8 := by
  by_cases h0 : nativeExp w = 0
  · obtain ⟨q, hq, hsmall⟩ := ratOf_of_exp_zero h0
    exact enc_of_small hq hsmall d
  · have hmax := flushExp_add_lt_nativeEmax w.fmt
    obtain ⟨q, hq, -, habs⟩ := ratOf_normal_parts h0 (by omega)
    obtain ⟨-, hlt⟩ := nativeFrac_div_bounds w
    refine enc_of_small hq ?_ d
    rw [habs]
    calc _ < 2 * (2 : Rat) ^ ((nativeExp w : Int) - flushExp w.fmt - 8) :=
          mul_lt_mul_of_pos_right (by linarith) (two_zpow_pos _)
      _ = (2 : Rat) ^ (1 + ((nativeExp w : Int) - flushExp w.fmt - 8)) := (zpow_one_add₀ two_ne_zero _).symm
      _ ≤ (2 : Rat) ^ (-7 : Int) := zpow_le_zpow_right₀ one_le_two (by omega)

/-- R113, R114: finite patterns from exponent field `flushExp + 16` on saturate. -/
theorem enc_of_high_exp {w : Native} (h : flushExp w.fmt + 16 ≤ nativeExp w) (hmax : nativeExp w ≠ nativeEmax w.fmt)
    (d : Byte) : enc Config.encodeExpAdjust w d = packByte (nativeSign w) 15 0 := by
  obtain ⟨q, hq, hsign, habs⟩ := ratOf_normal_parts (by omega) hmax
  obtain ⟨hf, -⟩ := nativeFrac_div_bounds w
  rw [← hsign]
  refine enc_of_large hq ?_ d
  rw [habs]
  exact (zpow_le_zpow_right₀ one_le_two (by omega)).trans (le_mul_of_one_le_left (two_zpow_pos _).le (by linarith))

/-- R113, R114: the three leading bits of the fraction field. -/
def leadingFrac (w : Native) : Nat := nativeFrac w / 2 ^ (fracBits w.fmt - 3)

/-- The leading bits are the fraction in eighths, rounded down. -/
theorem leadingFrac_bounds (w : Native) :
    leadingFrac w < 8 ∧ (leadingFrac w : Rat) ≤ 8 * (nativeFrac w / (2 : Rat) ^ fracBits w.fmt) ∧
      8 * ((nativeFrac w : Rat) / (2 : Rat) ^ fracBits w.fmt) < leadingFrac w + 1 := by
  have hN : (0 : Rat) < 2 ^ (fracBits w.fmt - 3) := by positivity
  have heighths : 8 * ((nativeFrac w : Rat) / (2 : Rat) ^ fracBits w.fmt) =
      nativeFrac w / 2 ^ (fracBits w.fmt - 3) := by
    rw [show (2 : Rat) ^ fracBits w.fmt = 8 * 2 ^ (fracBits w.fmt - 3) by exact_mod_cast two_pow_fracBits w.fmt]
    field_simp
  have hF := nativeFrac_lt w
  rw [two_pow_fracBits, mul_comm] at hF
  refine ⟨Nat.div_lt_of_lt_mul hF, ?_, ?_⟩ <;> rw [heighths]
  · exact_mod_cast (Nat.cast_div_le (α := Rat) (m := nativeFrac w) (n := 2 ^ (fracBits w.fmt - 3)))
  · rw [div_lt_iff₀ hN, mul_comm]
    exact_mod_cast Nat.lt_mul_div_succ (nativeFrac w) (Nat.two_pow_pos (fracBits w.fmt - 3))

/-- R113, R114: the exponent fields between give a normal byte, its mantissa the three leading fraction bits. -/
theorem enc_of_mid_exp {w : Native} (hlo : flushExp w.fmt < nativeExp w) (hhi : nativeExp w < flushExp w.fmt + 16)
    (d : Byte) : enc Config.encodeExpAdjust w d =
      packByte (nativeSign w) (nativeExp w - flushExp w.fmt) (leadingFrac w) := by
  have hmax := flushExp_add_lt_nativeEmax w.fmt
  obtain ⟨q, hq, hsign, habs⟩ := ratOf_normal_parts (w := w) (by omega) (by omega)
  obtain ⟨hf, hle, hlt⟩ := leadingFrac_bounds w
  have hp := two_zpow_pos (((nativeExp w - flushExp w.fmt : Nat) : Int) - 11)
  rw [show (nativeExp w : Int) - flushExp w.fmt - 8 = ((nativeExp w - flushExp w.fmt : Nat) : Int) - 8 by omega,
    ← eight_mul_zpow, ← mul_assoc] at habs
  rw [← hsign]
  refine enc_of_inBand hq ⟨by omega, by omega, hf, ?_, ?_⟩ d <;> rw [habs]
  · exact mul_le_mul_of_nonneg_right (by linarith) hp.le
  · exact mul_lt_mul_of_pos_right (by linarith) hp

/-- R113, R114: ENC8 of a pattern that is no NaN as a function of its fields, for both formats. -/
def encFields (w : Native) : Byte :=
  if nativeExp w = nativeEmax w.fmt then packByte (nativeSign w) 15 0
  else if nativeExp w ≤ flushExp w.fmt then 0x00#8
  else if flushExp w.fmt + 16 ≤ nativeExp w then packByte (nativeSign w) 15 0
  else packByte (nativeSign w) (nativeExp w - flushExp w.fmt) (leadingFrac w)

theorem enc_eq_encFields {w : Native} (hw : isNaN w = false) (d : Byte) :
    enc Config.encodeExpAdjust w d = encFields w := by
  unfold encFields
  split_ifs with hmax hlo hhi
  · have hf : nativeFrac w = 0 := by simpa [isNaN, hmax] using hw
    exact enc_of_infinity (val_of_infinity hmax hf) d
  · exact enc_of_low_exp hlo d
  · exact enc_of_high_exp hhi hmax d
  · exact enc_of_mid_exp (by omega) (by omega) d

/-- R113, R114 with log 4: ENC8 in every state, by the fields of its operand. -/
theorem exec_enc8_fields (s : State) (w : Native) : exec (.enc8 w) s =
    if nativeExp w = nativeEmax w.fmt ∧ nativeFrac w ≠ 0 then
      .next (({ s with draws := s.draws + 1 } : State).driveEncoder (Config.nanDraw s.draws))
    else .next (s.driveEncoder (encFields w)) := by
  have hnan : isNaN w = true ↔ nativeExp w = nativeEmax w.fmt ∧ nativeFrac w ≠ 0 := by simp [isNaN]
  split_ifs with h
  · exact exec_enc8_of_isNaN (hnan.mpr h) s
  · have hw : isNaN w = false := Bool.eq_false_iff.mpr fun hw => h (hnan.mp hw)
    rw [exec_enc8_of_not_isNaN hw s 0x00#8, enc_eq_encFields hw]

/-- The leading bits of a low field, as a number and as a slice. -/
theorem ofNat_extractLsb'_div {n : Nat} (w : BitVec n) (l k : Nat) :
    BitVec.ofNat k ((w.extractLsb' 0 (l + k)).toNat / 2 ^ l) = w.extractLsb' l k := by
  apply BitVec.eq_of_toNat_eq
  rw [BitVec.toNat_ofNat, BitVec.extractLsb'_toNat, BitVec.extractLsb'_toNat, Nat.shiftRight_zero, Nat.pow_add,
    Nat.mod_mul_right_div_self, Nat.mod_mod, Nat.shiftRight_eq_div_pow]

end Sys2Proof.Machine

namespace Sys2Proof.Settled
open Sys2Proof.Machine

/-- Settles O5: `exec_enc8_fields` at the widths of binary32. -/
theorem enc8Binary32ClosedForm : Obligations.Enc8Binary32ClosedForm := by
  intro s w
  have h := exec_enc8_fields s (.b32 w)
  simp only [encFields, leadingFrac, packByte] at h
  rw [← ofNat_extractLsb'_div w 20 3]
  exact h

/-- Settles O6: `exec_enc8_fields` at the widths of binary64. -/
theorem enc8Binary64ClosedForm : Obligations.Enc8Binary64ClosedForm := by
  intro s w
  have h := exec_enc8_fields s (.b64 w)
  simp only [encFields, leadingFrac, packByte] at h
  rw [← ofNat_extractLsb'_div w 49 3]
  exact h

/-- Settles O7: exponent field 0 is below the flush, and the infinities saturate with their sign. -/
theorem enc8ZerosSubnormalsInfinities : Obligations.Enc8ZerosSubnormalsInfinities := by
  refine fun s x => ⟨fun h => ?_, fun he hf => ?_⟩
  · obtain ⟨q, hq, hsmall⟩ := ratOf_of_exp_zero h
    exact exec_enc8_of_enc hq (enc_of_small hq hsmall) s
  · have hx : isNaN x = false := by simp [isNaN, hf]
    rw [exec_enc8_of_not_isNaN hx s 0x00#8, enc_of_infinity (val_of_infinity he hf)]
    cases nativeSign x <;> rfl

/-- Settles O36: the examples evaluate; ENC8 of a number uses no draw, so any byte may stand for it. -/
theorem workedExamples : Obligations.WorkedExamples := by
  have henc : ∀ {x : Native} {v : Byte}, isNaN x = false → enc Config.encodeExpAdjust x 0x00#8 = v →
      ∀ d, enc Config.encodeExpAdjust x d = v := fun hx hv d => (enc_draw _ _ hx d 0x00#8).trans hv
  refine ⟨henc rfl (by decide), ?_, ?_, ?_, ?_, ?_, ?_, ?_, ?_, henc rfl (by decide), henc rfl (by decide),
    henc rfl (by decide), ?_, ?_, ?_, ?_⟩ <;> decide

end Sys2Proof.Settled

/-!
PROOFS. DEC8 (R134 to R139): its result by fields and by pattern, and the order of its magnitudes, which rise with the
seven bits below the sign.
-/
namespace Sys2Proof.Machine

/-! ### The fields of the result -/

/-- R131: DEC8 of 0x00 is +0. -/
theorem dec_zero (fmt : NativeFmt) : dec fmt 0x00#8 = Native.ofNat fmt 0 := by
  simp [dec, decR, bitsNative, Exact.ofInt, Exact.isZero]

theorem nativeExp_ofNat_zero (fmt : NativeFmt) : nativeExp (Native.ofNat fmt 0) = 0 := by cases fmt <;> decide

theorem native_fields_dec (fmt : NativeFmt) {p : Byte} (hp : p ≠ 0x00#8) :
    nativeSign (dec fmt p) = signOf p ∧ nativeExp (dec fmt p) = flushExp fmt + (expOf p + 1) ∧
      nativeFrac (dec fmt p) = mantOf p * 2 ^ (fracBits fmt - 3) := by
  have hb := expOf_lt p
  have hmax := flushExp_add_lt_nativeEmax fmt
  rw [dec_eq_bandPattern fmt hp]
  exact native_fields_packNative fmt _ (by omega) (bandPattern_frac_lt fmt (mantOf_lt p))

/-- R138: DEC8 of a nonzero byte is a normal number. -/
theorem dec_normal (fmt : NativeFmt) {p : Byte} (hp : p ≠ 0x00#8) :
    nativeExp (dec fmt p) ≠ 0 ∧ nativeExp (dec fmt p) ≠ nativeEmax fmt := by
  have hb := expOf_lt p
  have hmax := flushExp_add_lt_nativeEmax fmt
  obtain ⟨-, he, -⟩ := native_fields_dec fmt hp
  omega

theorem dec_eq_zero_iff (fmt : NativeFmt) (p : Byte) : dec fmt p = Native.ofNat fmt 0 ↔ p = 0x00#8 := by
  constructor
  · intro h
    by_contra hp
    exact (dec_normal fmt hp).1 (by rw [h, nativeExp_ofNat_zero])
  · rintro rfl
    exact dec_zero fmt

/-! ### The bits of the result -/

/-- A sign bit, as a truth value and as a slice. -/
theorem ofBool_getLsbD_eq_extractLsb' {n : Nat} (w : BitVec n) (i : Nat) :
    BitVec.ofBool (w.getLsbD i) = w.extractLsb' i 1 := by
  ext j hj
  obtain rfl : j = 0 := by omega
  simp

/-- A field on top of zeros, as a number and as bits side by side. -/
theorem ofNat_toNat_mul_two_pow {k : Nat} (w : BitVec k) (l : Nat) :
    BitVec.ofNat (k + l) (w.toNat * 2 ^ l) = w ++ 0#l := by
  have hlt : w.toNat * 2 ^ l < 2 ^ (k + l) := by
    rw [Nat.pow_add]
    exact Nat.mul_lt_mul_of_pos_right w.isLt (Nat.two_pow_pos l)
  apply BitVec.eq_of_toNat_eq
  rw [BitVec.toNat_ofNat, Nat.mod_eq_of_lt hlt, BitVec.toNat_append, BitVec.toNat_ofNat, Nat.zero_mod, Nat.or_zero,
    Nat.shiftLeft_eq]

/-- R137: the byte's own sign and mantissa bits stand around the exponent field, with zeros below. -/
theorem append_byte_fields (p : Byte) (e E l : Nat) :
    BitVec.ofBool (signOf p) ++ BitVec.ofNat e E ++ BitVec.ofNat (3 + l) (mantOf p * 2 ^ l) =
      (p.extractLsb' 7 1 ++ BitVec.ofNat e E ++ p.extractLsb' 0 3 ++ 0#l).cast (Nat.add_assoc (1 + e) 3 l) := by
  rw [signOf, ofBool_getLsbD_eq_extractLsb', mantOf, ofNat_toNat_mul_two_pow, BitVec.append_assoc (x₃ := 0#l),
    BitVec.cast_cast, BitVec.cast_eq]

theorem dec_binary32 {p : Byte} (hp : p ≠ 0x00#8) : dec .binary32 p =
    .b32 (p.extractLsb' 7 1 ++ BitVec.ofNat 8 (expOf p + 120) ++ p.extractLsb' 0 3 ++ 0#20) := by
  have hexp : flushExp .binary32 + (expOf p + 1) = expOf p + 120 := Nat.add_left_comm 119 (expOf p) 1
  rw [dec_eq_bandPattern _ hp, bandPattern, hexp]
  exact congrArg Native.b32 (append_byte_fields p 8 (expOf p + 120) 20)

theorem dec_binary64 {p : Byte} (hp : p ≠ 0x00#8) : dec .binary64 p =
    .b64 (p.extractLsb' 7 1 ++ BitVec.ofNat 11 (expOf p + 1016) ++ p.extractLsb' 0 3 ++ 0#49) := by
  have hexp : flushExp .binary64 + (expOf p + 1) = expOf p + 1016 := Nat.add_left_comm 1015 (expOf p) 1
  rw [dec_eq_bandPattern _ hp, bandPattern, hexp]
  exact congrArg Native.b64 (append_byte_fields p 11 (expOf p + 1016) 49)

/-! ### The order of the magnitudes -/

/-- R134: the magnitude of a nonzero byte whose seven bits below the sign are `n`. -/
def magnitudeAt (n : Nat) : Rat := (8 + (n % 8 : Nat)) * (2 : Rat) ^ (((n / 8 : Nat) : Int) - 10)

theorem magnitudeAt_fields (b : Nat) {f : Nat} (hf : f < 8) :
    magnitudeAt (b * 8 + f) = (8 + f) * (2 : Rat) ^ ((b : Int) - 10) := by
  rw [magnitudeAt, show (b * 8 + f) % 8 = f by omega, show (b * 8 + f) / 8 = b by omega]

/-- A mantissa below 7 grows by one; from 7 the next binade begins. -/
theorem magnitudeAt_lt_succ (n : Nat) : magnitudeAt n < magnitudeAt (n + 1) := by
  have hp := two_zpow_pos (((n / 8 : Nat) : Int) - 10)
  obtain hlt | heq : n % 8 + 1 < 8 ∨ n % 8 = 7 := by omega
  · rw [magnitudeAt, magnitudeAt, show (n + 1) % 8 = n % 8 + 1 by omega, show (n + 1) / 8 = n / 8 by omega]
    exact mul_lt_mul_of_pos_right (by push_cast; linarith) hp
  · rw [magnitudeAt, magnitudeAt, heq, show (n + 1) % 8 = 0 by omega, show (n + 1) / 8 = n / 8 + 1 by omega,
      show ((n / 8 + 1 : Nat) : Int) - 10 = ((n / 8 : Nat) : Int) - 10 + 1 by push_cast; ring,
      zpow_add_one₀ two_ne_zero, Nat.cast_zero, Nat.cast_ofNat]
    linarith

theorem strictMono_magnitudeAt : StrictMono magnitudeAt := strictMono_nat_of_lt_succ magnitudeAt_lt_succ

theorem magnitudeAt_pos (n : Nat) : 0 < magnitudeAt n := mul_pos (by positivity) (two_zpow_pos _)

/-- R138: the smallest magnitude of a nonzero byte. -/
theorem magnitudeAt_zero : magnitudeAt 0 = (2 : Rat) ^ (-7 : Int) := by norm_num [magnitudeAt]

/-- R138: the largest magnitude. -/
theorem magnitudeAt_max : magnitudeAt 127 = 480 := by norm_num [magnitudeAt]

/-- R60: the seven bits below the sign are the exponent and mantissa fields. -/
theorem toNat_mod_eq_fields (p : Byte) : p.toNat % 128 = expOf p * 8 + mantOf p := by
  have h := packByte_toNat_mod (signOf p) (Nat.le_of_lt_succ (expOf_lt p)) (mantOf_lt p)
  rwa [packByte_fields] at h

theorem ratOfByte_eq_magnitudeAt {p : Byte} (hp : p ≠ 0x00#8) :
    ratOfByte p = (if signOf p then -1 else 1) * magnitudeAt (p.toNat % 128) := by
  rw [ratOfByte_of_ne_zero hp, toNat_mod_eq_fields, magnitudeAt_fields _ (mantOf_lt p)]

theorem abs_ratOfByte {p : Byte} (hp : p ≠ 0x00#8) : |ratOfByte p| = magnitudeAt (p.toNat % 128) := by
  rw [ratOfByte_eq_magnitudeAt hp, abs_signed _ (magnitudeAt_pos _)]

theorem ratOfByte_eq_zero_iff (p : Byte) : ratOfByte p = 0 ↔ p = 0x00#8 := by
  constructor
  · intro h
    by_contra hp
    have hpos := magnitudeAt_pos (p.toNat % 128)
    rw [← abs_ratOfByte hp, h, abs_zero] at hpos
    exact lt_irrefl 0 hpos
  · rintro rfl
    exact ratOfByte_zero

/-- R139: the sign of the value and its magnitude fix the byte. -/
theorem ratOfByte_injective : Function.Injective ratOfByte := by
  intro p q h
  by_cases hp : p = 0x00#8
  · rw [hp, ratOfByte_zero] at h
    rw [hp, (ratOfByte_eq_zero_iff q).mp h.symm]
  · have hq : q ≠ 0x00#8 := fun hq => hp ((ratOfByte_eq_zero_iff p).mp (h.trans ((ratOfByte_eq_zero_iff q).mpr hq)))
    have hmag : p.toNat % 128 = q.toNat % 128 :=
      strictMono_magnitudeAt.injective (by rw [← abs_ratOfByte hp, ← abs_ratOfByte hq, h])
    have hsign : signOf p = signOf q := by
      rw [← decide_signed_neg (signOf p) (magnitudeAt_pos (p.toNat % 128)), ← ratOfByte_eq_magnitudeAt hp, h,
        ratOfByte_eq_magnitudeAt hq, decide_signed_neg (signOf q) (magnitudeAt_pos _)]
    rw [toNat_mod_eq_fields, toNat_mod_eq_fields] at hmag
    have hp8 := mantOf_lt p
    have hq8 := mantOf_lt q
    rw [← packByte_fields p, ← packByte_fields q, hsign, show expOf p = expOf q by omega,
      show mantOf p = mantOf q by omega]

end Sys2Proof.Machine

namespace Sys2Proof.Settled
open Sys2Proof.Machine

/-- Settles O23: the bits of the result in each format, its value, and its exponent field. -/
theorem dec8ClosedForm : Obligations.Dec8ClosedForm := by
  refine fun s p => ⟨fun h => ?_, fun h => ?_, ratOf_dec .binary32 p, ratOf_dec .binary64 p, fun fmt => ?_⟩
  · rw [exec_dec8, h]
    split_ifs with hp
    · rw [hp, dec_zero]; rfl
    · rw [dec_binary32 hp]
  · rw [exec_dec8, h]
    split_ifs with hp
    · rw [hp, dec_zero]; rfl
    · rw [dec_binary64 hp]
  · by_cases hp : p = 0x00#8
    · exact .inl ((dec_eq_zero_iff fmt p).mpr hp)
    · exact .inr (dec_normal fmt hp)

/-- Settles O24: the pattern DEC8 drives has the value of the byte, in eighths or in units of the last mantissa bit. -/
theorem dec8Value : Obligations.Dec8Value := by
  refine ⟨fun s => by rw [exec_dec8, dec_zero], fun s p hp => ?_⟩
  have hunits : (1 + mantOf p / 8 : Rat) * (2 : Rat) ^ ((expOf p : Int) - 7) =
      (8 + mantOf p) * (2 : Rat) ^ ((expOf p : Int) - 10) := by
    rw [show (expOf p : Int) - 7 = 3 + (expOf p - 10) by ring, zpow_add₀ two_ne_zero]
    ring
  refine ⟨dec s.fmt p, exec_dec8 p s, dec_fmt s.fmt p, ?_, ?_⟩ <;> rw [ratOf_dec, ratOfByte_of_ne_zero hp, mul_assoc]
  rw [hunits]

/-- Settles O25: the fields of the result, and the ends of the rising magnitudes. -/
theorem dec8Range : Obligations.Dec8Range := by
  intro fmt p
  refine ⟨?_, fun h => ?_, (dec_eq_zero_iff fmt p).symm, fun hp => ?_⟩
  · by_cases hp : p = 0x00#8
    · rw [hp, dec_zero, nativeExp_ofNat_zero]
      exact (nativeEmax_ne_zero fmt).symm
    · exact (dec_normal fmt hp).2
  · by_contra hp
    exact (dec_normal fmt fun hz => hp ((dec_eq_zero_iff fmt p).mpr hz)).1 h
  · have hlt : p.toNat % 128 < 128 := Nat.mod_lt _ (by decide)
    rw [abs_ratOfByte hp, ← magnitudeAt_zero, ← magnitudeAt_max, strictMono_magnitudeAt.le_iff_le,
      strictMono_magnitudeAt.le_iff_le, strictMono_magnitudeAt.injective.eq_iff,
      strictMono_magnitudeAt.injective.eq_iff]
    exact ⟨Nat.zero_le _, by omega, by bv_omega, by bv_omega⟩

/-- Settles O26: the values differ, so the patterns that carry them do. -/
theorem dec8Injective : Obligations.Dec8Injective := by
  refine ⟨fun fmt p q h => ratOfByte_injective ?_, fun p q h => ratOfByte_injective h⟩
  rw [← Option.some.injEq, ← ratOf_dec fmt p, h, ratOf_dec fmt q]

/-- Settles O27: the result is the lowest pattern of the band one exponent higher; from exponent 15 that is past the
last band. -/
theorem encodeAfterDecode : Obligations.EncodeAfterDecode := by
  intro fmt p d
  have hb := expOf_lt p
  split_ifs with hp h15
  · rw [hp, dec_zero]
    refine enc_of_low_exp ?_ d
    rw [nativeExp_ofNat_zero]
    exact Nat.zero_le _
  · have hmax := (dec_normal fmt hp).2
    obtain ⟨hs, he, -⟩ := native_fields_dec fmt hp
    rw [← hs]
    exact enc_of_high_exp (by rw [he, dec_fmt, h15]) (by rwa [dec_fmt]) d
  · rw [dec_eq_bandPattern fmt hp, enc_bandPattern fmt _ (by omega) (by omega) (mantOf_lt p)]

end Sys2Proof.Settled

/-!
PROOFS. The exact sums and products of ADD8 and MUL8 (R149, R151, R153): a decoded byte is a small integer over a power
of two, so native patterns of either format carry the exact results and ENC8 of these is what the units drive.
-/
namespace Sys2Proof.Machine

/-! ### Native patterns of small integers over powers of two -/

/-- An integer of at most `m` bits is its leading one and, for any `P` from `m` on, a fraction of it in `P` bits. -/
theorem exists_leading_one {n m P : Nat} (hn : 0 < n) (hm : n < 2 ^ m) (hP : m ≤ P) :
    ∃ L F : Nat, L < m ∧ F < 2 ^ P ∧ (n : Rat) = (1 + (F : Rat) / (2 : Rat) ^ P) * (2 : Rat) ^ L := by
  have hle : 2 ^ n.log2 ≤ n := Nat.log2_self_le hn.ne'
  have hlt : n < 2 ^ (n.log2 + 1) := Nat.lt_log2_self
  have hL : n.log2 < m := (Nat.log2_lt hn.ne').mpr hm
  have hsplit : 2 ^ P = 2 ^ (P - n.log2) * 2 ^ n.log2 := by rw [← Nat.pow_add, Nat.sub_add_cancel (by omega)]
  have hrest : n - 2 ^ n.log2 < 2 ^ n.log2 := by rw [Nat.pow_succ] at hlt; omega
  refine ⟨n.log2, (n - 2 ^ n.log2) * 2 ^ (P - n.log2), hL, ?_, ?_⟩
  · rw [hsplit, mul_comm]
    exact Nat.mul_lt_mul_of_pos_left hrest (Nat.two_pow_pos _)
  · rw [show (2 : Rat) ^ P = 2 ^ (P - n.log2) * 2 ^ n.log2 by exact_mod_cast hsplit]
    push_cast [Nat.cast_sub hle]
    field_simp
    ring

/-- An integer is its magnitude with a sign. -/
theorem intCast_eq_signed_natAbs (N : Int) : (N : Rat) = (if decide (N < 0) then -1 else 1) * (N.natAbs : Rat) := by
  rw [Nat.cast_natAbs]
  rcases lt_or_ge N 0 with h | h
  · rw [abs_of_neg h, if_pos (decide_eq_true h), Int.cast_neg, neg_one_mul, neg_neg]
  · rw [abs_of_nonneg h, if_neg (by simpa using h), one_mul]

/-- R64, R65: both formats have more than 20 bits of fraction, and normal numbers from `2^-20` to below `2^30`. -/
theorem native_format_bounds (fmt : NativeFmt) :
    20 ≤ fracBits fmt ∧ 20 < nativeBias fmt ∧ nativeBias fmt + 30 < nativeEmax fmt := by
  cases fmt <;> decide

/-- The pattern of a normal number of `fmt` has its value. -/
theorem ratOf_bitsNative_of_normal {fmt : NativeFmt} {r : Exact} {s : Bool} {E F : Nat} (h0 : E ≠ 0)
    (hmax : E < nativeEmax fmt) (hF : F < 2 ^ fracBits fmt)
    (hr : r.toRat = (if s then -1 else 1) * (1 + (F : Rat) / (2 : Rat) ^ fracBits fmt) *
      (2 : Rat) ^ ((E : Int) - nativeBias fmt)) : ratOf (bitsNative fmt r) = some r.toRat := by
  obtain ⟨hs, he, hf⟩ := native_fields_packNative fmt s hmax.le hF
  have h := ratOf_of_normal (w := packNative fmt s E F) (by rwa [he]) (by rw [he, packNative_fmt]; exact hmax.ne)
  rw [hs, he, hf, packNative_fmt] at h
  rw [bitsNative_of_normal hF hr, h, hr]

/-- R66: the pattern of a zero has its value. -/
theorem ratOf_bitsNative_of_zero (fmt : NativeFmt) {r : Exact} (hr : r.toRat = 0) :
    ratOf (bitsNative fmt r) = some r.toRat := by
  rw [bitsNative, if_pos (r.isZero_iff.mpr hr), hr]
  exact ratOf_of_zero (n := false) (by cases fmt <;> decide)

/-- R151, R153: an integer below `2^20` over a power of two near 1 is zero or a normal number of either format. -/
theorem ratOf_bitsNative (fmt : NativeFmt) {r : Exact} {N k : Int} (hr : r.toRat = N * (2 : Rat) ^ k)
    (hN : |N| < 2 ^ 20) (hlo : -20 ≤ k) (hhi : k ≤ 10) : ratOf (bitsNative fmt r) = some r.toRat := by
  by_cases hzero : N = 0
  · exact ratOf_bitsNative_of_zero fmt (by rw [hr, hzero, Int.cast_zero, zero_mul])
  · rw [Int.abs_eq_natAbs] at hN
    obtain ⟨hP, hbias, hmax⟩ := native_format_bounds fmt
    obtain ⟨L, F, hL, hF, hn⟩ := exists_leading_one (n := N.natAbs) (by omega) (by omega) hP
    obtain ⟨E, hE⟩ := Int.eq_ofNat_of_zero_le (show 0 ≤ L + k + nativeBias fmt by omega)
    refine ratOf_bitsNative_of_normal (s := decide (N < 0)) (E := E) (F := F) (by omega) (by omega) hF ?_
    rw [hr, intCast_eq_signed_natAbs, hn, ← hE, add_sub_cancel_right, zpow_add₀ two_ne_zero, zpow_natCast]
    ring

/-! ### The exact sum and product of two bytes -/

/-- R134, R149: a decoded byte is an integer of four bits over a power of two. -/
theorem ratOfByte_eq_int_mul (p : Byte) :
    ∃ (m : Int) (b : Nat), |m| ≤ 15 ∧ b ≤ 15 ∧ ratOfByte p = m * (2 : Rat) ^ ((b : Int) - 10) := by
  by_cases hp : p = 0x00#8
  · exact ⟨0, 0, by decide, by decide, by rw [hp, ratOfByte_zero, Int.cast_zero, zero_mul]⟩
  · have hb := expOf_lt p
    have hf := mantOf_lt p
    refine ⟨(if signOf p then -1 else 1) * (8 + mantOf p), expOf p, ?_, by omega, ?_⟩
    · split_ifs <;> rw [abs_le] <;> omega
    · rw [ratOfByte_of_ne_zero hp]
      push_cast
      ring

/-- R151: a decoded byte is a multiple of `2^-10`. -/
theorem ratOfByte_eq_multiple (p : Byte) :
    ∃ N : Int, ratOfByte p = N * (2 : Rat) ^ (-10 : Int) ∧ |N| < 2 ^ 19 := by
  obtain ⟨m, b, hm, hb, hp⟩ := ratOfByte_eq_int_mul p
  refine ⟨m * 2 ^ b, ?_, ?_⟩
  · rw [hp, sub_eq_add_neg, zpow_add₀ two_ne_zero, zpow_natCast]
    push_cast
    ring
  · calc |m * 2 ^ b| = |m| * 2 ^ b := by rw [abs_mul, abs_of_pos (by positivity : (0 : Int) < 2 ^ b)]
      _ ≤ 15 * 2 ^ 15 := mul_le_mul hm (pow_le_pow_right₀ (by decide) hb) (by positivity) (by decide)
      _ < 2 ^ 19 := by decide

/-- R151: the exact sum is a multiple of `2^-10` of at most 20 bits. -/
theorem sum_eq_multiple (a b : Byte) :
    ∃ N : Int, ratOfByte a + ratOfByte b = N * (2 : Rat) ^ (-10 : Int) ∧ |N| < 2 ^ 20 := by
  obtain ⟨M, ha, hM⟩ := ratOfByte_eq_multiple a
  obtain ⟨N, hb, hN⟩ := ratOfByte_eq_multiple b
  refine ⟨M + N, by rw [ha, hb, Int.cast_add, add_mul], ?_⟩
  have := abs_add_le M N
  omega

/-- R153: the exact product is an integer of eight bits over a power of two. -/
theorem product_eq_int_mul (a b : Byte) :
    ∃ N k : Int, ratOfByte a * ratOfByte b = N * (2 : Rat) ^ k ∧ |N| ≤ 225 ∧ -20 ≤ k ∧ k ≤ 10 := by
  obtain ⟨m, i, hm, hi, ha⟩ := ratOfByte_eq_int_mul a
  obtain ⟨n, j, hn, hj, hb⟩ := ratOfByte_eq_int_mul b
  refine ⟨m * n, (i - 10) + (j - 10), ?_, ?_, by omega, by omega⟩
  · rw [ha, hb, zpow_add₀ two_ne_zero, Int.cast_mul, mul_mul_mul_comm]
  · rw [abs_mul]
    exact mul_le_mul hm hn (abs_nonneg n) (by decide)

@[simp] theorem toRat_decR_add (a b : Byte) : ((decR a).add (decR b)).toRat = ratOfByte a + ratOfByte b :=
  Exact.toRat_add _ _

@[simp] theorem toRat_decR_mul (a b : Byte) : ((decR a).mul (decR b)).toRat = ratOfByte a * ratOfByte b :=
  Exact.toRat_mul _ _

/-- R151: the native pattern of a sum has exactly its value. -/
theorem ratOf_bitsNative_sum (fmt : NativeFmt) (a b : Byte) :
    ratOf (bitsNative fmt ((decR a).add (decR b))) = some (ratOfByte a + ratOfByte b) := by
  obtain ⟨N, hsum, hN⟩ := sum_eq_multiple a b
  rw [← toRat_decR_add] at hsum ⊢
  exact ratOf_bitsNative fmt hsum hN (by decide) (by decide)

/-- R153: the native pattern of a product has exactly its value. -/
theorem ratOf_bitsNative_product (fmt : NativeFmt) (a b : Byte) :
    ratOf (bitsNative fmt ((decR a).mul (decR b))) = some (ratOfByte a * ratOfByte b) := by
  obtain ⟨N, k, hprod, hN, hlo, hhi⟩ := product_eq_int_mul a b
  rw [← toRat_decR_mul] at hprod ⊢
  exact ratOf_bitsNative fmt hprod (by omega) hlo hhi

/-- R138: the magnitudes of the nonzero bytes. -/
theorem abs_ratOfByte_bounds {p : Byte} (hp : p ≠ 0x00#8) :
    (2 : Rat) ^ (-7 : Int) ≤ |ratOfByte p| ∧ |ratOfByte p| ≤ 480 := by
  have hlt : p.toNat % 128 < 128 := Nat.mod_lt _ (by decide)
  rw [abs_ratOfByte hp, ← magnitudeAt_zero, ← magnitudeAt_max, strictMono_magnitudeAt.le_iff_le,
    strictMono_magnitudeAt.le_iff_le]
  exact ⟨Nat.zero_le _, by omega⟩

/-- R153: the magnitude of a nonzero product. -/
theorem product_bounds {a b : Byte} (ha : a ≠ 0x00#8) (hb : b ≠ 0x00#8) :
    (2 : Rat) ^ (-14 : Int) ≤ |ratOfByte a * ratOfByte b| ∧ |ratOfByte a * ratOfByte b| ≤ 230400 := by
  obtain ⟨halo, hahi⟩ := abs_ratOfByte_bounds ha
  obtain ⟨hblo, hbhi⟩ := abs_ratOfByte_bounds hb
  rw [abs_mul]
  constructor
  · calc (2 : Rat) ^ (-14 : Int) = (2 : Rat) ^ (-7 : Int) * (2 : Rat) ^ (-7 : Int) := by norm_num
      _ ≤ _ := mul_le_mul halo hblo (two_zpow_pos _).le (abs_nonneg _)
  · calc _ ≤ (480 : Rat) * 480 := mul_le_mul hahi hbhi (abs_nonneg _) (by norm_num)
      _ = 230400 := by norm_num

/-! ### ADD8 and MUL8 as encodings of patterns -/

/-- The encoding of an exact value is ENC8 of any pattern of that value, whatever the draw. -/
theorem encR_eq_enc {r : Exact} {x : Native} (hx : ratOf x = some r.toRat) (d : Byte) :
    encR Config.encodeExpAdjust r = enc Config.encodeExpAdjust x d := by
  rcases magnitude_cases |r.toRat| with h | ⟨b, f, h⟩ | h
  · rw [encR_of_small h, enc_of_small hx h]
  · rw [encR_of_inBand h, enc_of_inBand hx h]
  · rw [encR_of_large h, enc_of_large hx h]

/-- R150: ADD8 is ENC8 of any pattern with the value of the exact sum. -/
theorem add8_eq_enc {a b : Byte} {x : Native} (hx : ratOf x = some (ratOfByte a + ratOfByte b)) (d : Byte) :
    add8 Config.encodeExpAdjust a b = enc Config.encodeExpAdjust x d :=
  encR_eq_enc (by rw [hx, toRat_decR_add]) d

/-- R152: MUL8 is ENC8 of any pattern with the value of the exact product. -/
theorem mul8_eq_enc {a b : Byte} {x : Native} (hx : ratOf x = some (ratOfByte a * ratOfByte b)) (d : Byte) :
    mul8 Config.encodeExpAdjust a b = enc Config.encodeExpAdjust x d :=
  encR_eq_enc (by rw [hx, toRat_decR_mul]) d

end Sys2Proof.Machine

namespace Sys2Proof.Settled
open Sys2Proof.Machine

/-- Settles O28: the native pattern of the sum carries it exactly. -/
theorem add8EncodesTheExactSum : Obligations.Add8EncodesTheExactSum := fun s a b =>
  ⟨_, exec_add8 a b s, sum_eq_multiple a b, fun fmt =>
    ⟨_, bitsNative_fmt fmt _, ratOf_bitsNative_sum fmt a b, add8_eq_enc (ratOf_bitsNative_sum fmt a b)⟩⟩

/-- Settles O29: the native pattern of the product carries it exactly. -/
theorem mul8EncodesTheExactProduct : Obligations.Mul8EncodesTheExactProduct := by
  intro s a b
  refine ⟨_, exec_mul8 a b s, ?_, fun fmt =>
    ⟨_, bitsNative_fmt fmt _, ratOf_bitsNative_product fmt a b, mul8_eq_enc (ratOf_bitsNative_product fmt a b)⟩⟩
  by_cases ha : a = 0x00#8
  · exact .inl (by rw [ha, ratOfByte_zero, zero_mul])
  by_cases hb : b = 0x00#8
  · exact .inl (by rw [hb, ratOfByte_zero, mul_zero])
  · exact .inr (product_bounds ha hb)

/-- Settles O30: a sum and a product are exactly the values of their native patterns. -/
theorem encRIsEnc8OfTheNativePattern : Obligations.EncRIsEnc8OfTheNativePattern := fun fmt a b d =>
  ⟨(add8_eq_enc (ratOf_bitsNative_sum fmt a b) d).symm, (mul8_eq_enc (ratOf_bitsNative_product fmt a b) d).symm⟩

end Sys2Proof.Settled

/-!
PROOFS. What ADD8 and MUL8 give (R154 to R158), by the value of the exact result: flushing, saturation, signs, and the
laws that are ENC8 of a shifted pattern.
-/
namespace Sys2Proof.Machine

/-! ### The bytes ADD8 and MUL8 give -/

/-- R150, R151: the result is ENC8 of a pattern with the exact sum's value. -/
theorem exists_sum_pattern (a b : Byte) : ∃ x : Native, ratOf x = some (ratOfByte a + ratOfByte b) ∧
    add8 Config.encodeExpAdjust a b = enc Config.encodeExpAdjust x 0x00#8 :=
  ⟨_, ratOf_bitsNative_sum .binary32 a b, add8_eq_enc (ratOf_bitsNative_sum .binary32 a b) _⟩

/-- R152, R153: the result is ENC8 of a pattern with the exact product's value. -/
theorem exists_product_pattern (a b : Byte) : ∃ x : Native, ratOf x = some (ratOfByte a * ratOfByte b) ∧
    mul8 Config.encodeExpAdjust a b = enc Config.encodeExpAdjust x 0x00#8 :=
  ⟨_, ratOf_bitsNative_product .binary32 a b, mul8_eq_enc (ratOf_bitsNative_product .binary32 a b) _⟩

/-- R154: ADD8 gives 0x00 to sums of magnitude below `2^-7` alone. -/
theorem add8_eq_zero_iff (a b : Byte) :
    add8 Config.encodeExpAdjust a b = 0x00#8 ↔ |ratOfByte a + ratOfByte b| < (2 : Rat) ^ (-7 : Int) := by
  obtain ⟨x, hx, h⟩ := exists_sum_pattern a b
  rw [h, enc_eq_zero_iff hx]

/-- R154: MUL8 gives 0x00 to products of magnitude below `2^-7` alone. -/
theorem mul8_eq_zero_iff (a b : Byte) :
    mul8 Config.encodeExpAdjust a b = 0x00#8 ↔ |ratOfByte a * ratOfByte b| < (2 : Rat) ^ (-7 : Int) := by
  obtain ⟨x, hx, h⟩ := exists_product_pattern a b
  rw [h, enc_eq_zero_iff hx]

theorem mul8_of_product_zero {a b : Byte} (h : ratOfByte a * ratOfByte b = 0) :
    mul8 Config.encodeExpAdjust a b = 0x00#8 := by
  rw [mul8_eq_zero_iff, h, abs_zero]
  exact two_zpow_pos _

/-- R154: a nonzero result of MUL8 has nonzero operands. -/
theorem operands_ne_zero_of_mul8 {a b : Byte} (h : mul8 Config.encodeExpAdjust a b ≠ 0x00#8) :
    a ≠ 0x00#8 ∧ b ≠ 0x00#8 := by
  rw [Ne, Ne, ← ratOfByte_eq_zero_iff, ← ratOfByte_eq_zero_iff, ← not_or, ← mul_eq_zero]
  exact mt mul8_of_product_zero h

/-- R62, R155: the saturation pattern comes from magnitudes of at least `2^8` and from the band `[128, 144)`. -/
theorem abs_of_enc_eq_saturated {x : Native} {q : Rat} (hx : ratOf x = some q) {d : Byte} {sg : Bool}
    (h : enc Config.encodeExpAdjust x d = packByte sg 15 0) :
    128 ≤ |q| ∧ (|q| < 144 ∨ (2 : Rat) ^ (8 : Int) ≤ |q|) := by
  rcases enc_cases hx d with ⟨-, he⟩ | ⟨b, f, hb, he⟩ | ⟨hl, -⟩
  · exact absurd (h.symm.trans he) (packByte_ne_zero sg (by decide) le_rfl)
  · have hfields := he.symm.trans h
    have h15 := hb.le_fifteen
    obtain rfl : b = 15 := by
      rw [← expOf_packByte (decide (q < 0)) (show b < 16 by omega) f, hfields, expOf_packByte sg (by decide)]
    obtain rfl : f = 0 := by
      rw [← mantOf_packByte (decide (q < 0)) 15 hb.mant_lt, hfields, mantOf_packByte sg 15 (by decide)]
    have hlower := hb.lower
    have hupper := hb.upper
    norm_num at hlower hupper
    exact ⟨hlower, .inl hupper⟩
  · exact ⟨le_trans (by norm_num) hl, .inr hl⟩

/-! ### The negation of a byte -/

/-- R154: flipping the top bit of a byte that is neither 0x00 nor 0x80 negates its value. -/
theorem ratOfByte_xor_sign {p : Byte} (hp : p ≠ 0x00#8) (hp' : p ≠ 0x80#8) :
    ratOfByte (p ^^^ 0x80#8) = -ratOfByte p := by
  have hsign : signOf (p ^^^ 0x80#8) = !signOf p := by simp [signOf]
  have hexp : expOf (p ^^^ 0x80#8) = expOf p := by simp [expOf, BitVec.extractLsb'_xor]
  have hmant : mantOf (p ^^^ 0x80#8) = mantOf p := by simp [mantOf, BitVec.extractLsb'_xor]
  rw [ratOfByte_of_ne_zero hp, ratOfByte_of_ne_zero (mt BitVec.xor_eq_zero_iff.mp hp'), hsign, hexp, hmant]
  cases signOf p <;> simp

/-- R138: 0x80 decodes to the smallest magnitude there is, with a minus. -/
theorem ratOfByte_0x80 : ratOfByte 0x80#8 = -(2 : Rat) ^ (-7 : Int) := by
  rw [ratOfByte_eq_magnitudeAt (by decide), show signOf 0x80#8 = true by decide, ← magnitudeAt_zero, if_pos rfl,
    neg_one_mul]
  rfl

/-- R154: the positive exponent-zero bytes decode to between `2^-7` and `2 * 2^-7`. -/
theorem ratOfByte_of_small {p : Byte} (h1 : 1 ≤ p.toNat) (h7 : p.toNat ≤ 7) :
    (2 : Rat) ^ (-7 : Int) < ratOfByte p ∧ ratOfByte p < 2 * (2 : Rat) ^ (-7 : Int) := by
  have hp : p ≠ 0x00#8 := by rintro rfl; exact absurd h1 (by decide)
  have hsign : signOf p = false := by
    rw [signOf, BitVec.getLsbD, Nat.testBit_eq_false_of_lt]; omega
  have hmag : ratOfByte p = magnitudeAt p.toNat := by
    rw [ratOfByte_eq_magnitudeAt hp, hsign, if_neg Bool.false_ne_true, one_mul, Nat.mod_eq_of_lt (by omega)]
  have h8 : magnitudeAt 8 = 2 * magnitudeAt 0 := by norm_num [magnitudeAt]
  rw [hmag, ← magnitudeAt_zero, ← h8, strictMono_magnitudeAt.lt_iff_lt, strictMono_magnitudeAt.lt_iff_lt]
  omega

/-- R154: no byte decodes to `2^-7`, for its negation would be 0x80 and it itself 0x00. -/
theorem ratOfByte_ne_neg_0x80 (p : Byte) : ratOfByte p ≠ -ratOfByte 0x80#8 := by
  intro h
  have hp : p ≠ 0x00#8 := by
    rintro rfl
    rw [ratOfByte_zero, ratOfByte_0x80, neg_neg] at h
    exact (two_zpow_pos (-7)).ne h
  have hp' : p ≠ 0x80#8 := by
    rintro rfl
    rw [ratOfByte_0x80, neg_neg] at h
    linarith [two_zpow_pos (-7)]
  have hneg : ratOfByte (p ^^^ 0x80#8) = ratOfByte 0x80#8 := by rw [ratOfByte_xor_sign hp hp', h, neg_neg]
  exact hp (by simpa using ratOfByte_injective hneg)

/-- R154: 0x80 has no negation, but ADD8 maps it to 0x00 with the positive exponent-zero bytes. -/
theorem add8_0x80_of_small {p : Byte} (h1 : 1 ≤ p.toNat) (h7 : p.toNat ≤ 7) :
    add8 Config.encodeExpAdjust 0x80#8 p = 0x00#8 := by
  obtain ⟨hlo, hhi⟩ := ratOfByte_of_small h1 h7
  rw [add8_eq_zero_iff, ratOfByte_0x80, abs_lt]
  constructor <;> linarith

/-! ### Signs -/

/-- R120: a byte other than 0x00 was packed with the sign of the value. -/
theorem signOf_enc {x : Native} {q : Rat} (hx : ratOf x = some q) {d : Byte}
    (h : enc Config.encodeExpAdjust x d ≠ 0x00#8) : signOf (enc Config.encodeExpAdjust x d) = decide (q < 0) :=
  Settled.enc8KeepsTheSignOfANonzeroResult.1 x q d hx h

/-- The sign of a product is the exclusive or of the signs. -/
theorem signed_mul_signed (s s' : Bool) (v v' : Rat) :
    (if s then -1 else 1) * v * ((if s' then -1 else 1) * v') = (if s != s' then -1 else 1) * (v * v') := by
  cases s <;> cases s' <;> simp

theorem decide_product_neg {a b : Byte} (ha : a ≠ 0x00#8) (hb : b ≠ 0x00#8) :
    decide (ratOfByte a * ratOfByte b < 0) = (signOf a != signOf b) := by
  rw [ratOfByte_eq_magnitudeAt ha, ratOfByte_eq_magnitudeAt hb, signed_mul_signed,
    decide_signed_neg _ (mul_pos (magnitudeAt_pos _) (magnitudeAt_pos _))]

/-! ### Commutativity, doubling, and multiplication by 1 and by a half -/

/-- R158: the byte 0x38 decodes to 1. -/
theorem ratOfByte_0x38 : ratOfByte 0x38#8 = 1 := by
  have h := ratOfByte_packByte false (b := 7) (f := 0) (by decide) (by decide) (by decide)
  exact h.trans (by norm_num)

/-- R158: the byte 0x30 decodes to a half. -/
theorem ratOfByte_0x30 : ratOfByte 0x30#8 = 1 / 2 := by
  have h := ratOfByte_packByte false (b := 6) (f := 0) (by decide) (by decide) (by decide)
  exact h.trans (by norm_num)

/-- R158: a doubled byte lies one exponent above the pattern DEC8 drives, two above its own band. -/
theorem ratOfByte_add_self {p : Byte} (hp : p ≠ 0x00#8) : ratOfByte p + ratOfByte p =
    (if signOf p then -1 else 1) * ((8 + mantOf p) * (2 : Rat) ^ (((expOf p + 2 : Nat) : Int) - 11)) := by
  rw [ratOfByte_of_ne_zero hp, show ((expOf p + 2 : Nat) : Int) - 11 = (expOf p : Int) - 10 + 1 by push_cast; ring,
    zpow_add_one₀ two_ne_zero]
  ring

/-- R158: half a byte is the lower end of its own band. -/
theorem ratOfByte_mul_half {p : Byte} (hp : p ≠ 0x00#8) : ratOfByte p * ratOfByte 0x30#8 =
    (if signOf p then -1 else 1) * ((8 + mantOf p) * (2 : Rat) ^ ((expOf p : Int) - 11)) := by
  rw [ratOfByte_of_ne_zero hp, ratOfByte_0x30, show (expOf p : Int) - 10 = (expOf p : Int) - 11 + 1 by ring,
    zpow_add_one₀ two_ne_zero]
  ring

theorem add8_comm (a b : Byte) : add8 Config.encodeExpAdjust a b = add8 Config.encodeExpAdjust b a := by
  obtain ⟨x, hx, h⟩ := exists_sum_pattern a b
  rw [h, add8_eq_enc (by rw [hx, add_comm])]

theorem mul8_comm (a b : Byte) : mul8 Config.encodeExpAdjust a b = mul8 Config.encodeExpAdjust b a := by
  obtain ⟨x, hx, h⟩ := exists_product_pattern a b
  rw [h, mul8_eq_enc (by rw [hx, mul_comm])]

/-- R158: doubling raises the exponent field by two, or saturates. -/
theorem add8_self {p : Byte} (hp : p ≠ 0x00#8) : add8 Config.encodeExpAdjust p p =
    if expOf p + 2 ≤ 15 then packByte (signOf p) (expOf p + 2) (mantOf p) else packByte (signOf p) 15 0 := by
  have hf := mantOf_lt p
  split_ifs with hb
  · have hx := ratOf_bandPattern .binary32 (signOf p) (b := expOf p + 2) (by omega) hf
    rw [← ratOfByte_add_self hp] at hx
    rw [add8_eq_enc hx 0x00#8, enc_bandPattern .binary32 _ (by omega) hb hf]
  · obtain ⟨x, hx, h⟩ := exists_sum_pattern p p
    have hv : (0 : Rat) < (8 + mantOf p) * (2 : Rat) ^ (((expOf p + 2 : Nat) : Int) - 11) :=
      mul_pos (by positivity) (two_zpow_pos _)
    have hlarge : (2 : Rat) ^ (8 : Int) ≤ (8 + mantOf p) * (2 : Rat) ^ (((expOf p + 2 : Nat) : Int) - 11) :=
      calc (2 : Rat) ^ (8 : Int) = 8 * (2 : Rat) ^ (5 : Int) := by norm_num
        _ ≤ _ := mul_le_mul (by linarith [(mantOf p).cast_nonneg (α := Rat)])
          (zpow_le_zpow_right₀ one_le_two (by omega)) (two_zpow_pos _).le (by positivity)
    rw [h, enc_of_large hx (by rwa [ratOfByte_add_self hp, abs_signed _ hv]), ratOfByte_add_self hp,
      decide_signed_neg _ hv]

/-- R158: halving undoes the exponent step of DEC8 on a normal byte and flushes the others. -/
theorem mul8_half (p : Byte) : mul8 Config.encodeExpAdjust p 0x30#8 = if 1 ≤ expOf p then p else 0x00#8 := by
  have hb := expOf_lt p
  have hf := mantOf_lt p
  split_ifs with h1
  · have hp : p ≠ 0x00#8 := by rintro rfl; exact absurd h1 (by decide)
    have hx := ratOf_bandPattern .binary32 (signOf p) (b := expOf p) (by omega) hf
    rw [← ratOfByte_mul_half hp] at hx
    rw [mul8_eq_enc hx 0x00#8, enc_bandPattern .binary32 _ h1 (by omega) hf, packByte_fields]
  · by_cases hp : p = 0x00#8
    · exact mul8_of_product_zero (by rw [hp, ratOfByte_zero, zero_mul])
    · rw [mul8_eq_zero_iff, ratOfByte_mul_half hp, abs_signed _ (mul_pos (by positivity) (two_zpow_pos _)),
        show expOf p = 0 by omega]
      calc (8 + mantOf p : Rat) * (2 : Rat) ^ (((0 : Nat) : Int) - 11)
          < 16 * (2 : Rat) ^ (((0 : Nat) : Int) - 11) :=
            mul_lt_mul_of_pos_right (by linarith [show (mantOf p : Rat) < 8 by exact_mod_cast hf]) (two_zpow_pos _)
        _ = (2 : Rat) ^ (-7 : Int) := by norm_num

end Sys2Proof.Machine

namespace Sys2Proof.Settled
open Sys2Proof.Machine

/-- Settles O31: ADD8 and MUL8 flush exactly below `2^-7`; a byte's partner is its negation, and 0x01 for 0x80. -/
theorem zeroResults : Obligations.ZeroResults := by
  refine ⟨add8_eq_zero_iff, fun a b => ?_, fun p => ratOfByte_xor_sign, ratOfByte_ne_neg_0x80,
    fun p => add8_0x80_of_small, fun p hp => ?_⟩
  · rw [← ratOfByte_eq_zero_iff a, ← ratOfByte_eq_zero_iff b, ← or_assoc, ← mul_eq_zero, ← mul8_eq_zero_iff,
      or_iff_right_of_imp mul8_of_product_zero]
  · by_cases h80 : p = 0x80#8
    · exact ⟨0x01#8, h80 ▸ add8_0x80_of_small (by decide) (by decide)⟩
    · refine ⟨p ^^^ 0x80#8, (add8_eq_zero_iff _ _).mpr ?_⟩
      rw [ratOfByte_xor_sign hp h80, add_neg_cancel, abs_zero]
      exact two_zpow_pos _

/-- Settles O32: the saturation of ENC8, and what else gives its byte. -/
theorem arithmeticSaturates : Obligations.ArithmeticSaturates := by
  refine ⟨fun a b hl => ?_, fun a b hl => ?_, fun a b sg hs => ?_, fun a b sg hs => ?_⟩
  · obtain ⟨x, hx, h⟩ := exists_sum_pattern a b
    rw [h, enc_of_large hx hl]
  · obtain ⟨x, hx, h⟩ := exists_product_pattern a b
    rw [h, enc_of_large hx hl]
  · obtain ⟨x, hx, h⟩ := exists_sum_pattern a b
    exact abs_of_enc_eq_saturated hx (h ▸ hs)
  · obtain ⟨x, hx, h⟩ := exists_product_pattern a b
    exact abs_of_enc_eq_saturated hx (h ▸ hs)

/-- Settles O33: ENC8 keeps the sign of the exact result, and a nonzero product has nonzero operands. -/
theorem arithmeticSigns : Obligations.ArithmeticSigns := by
  refine ⟨fun a b hne => ?_, fun a b hne => ?_⟩
  · obtain ⟨x, hx, h⟩ := exists_sum_pattern a b
    rw [h] at hne ⊢
    rw [signOf_enc hx hne, decide_eq_true_eq]
  · obtain ⟨ha, hb⟩ := operands_ne_zero_of_mul8 hne
    obtain ⟨x, hx, h⟩ := exists_product_pattern a b
    rw [h] at hne ⊢
    rw [signOf_enc hx hne, decide_product_neg ha hb]

/-- Settles O34: the exact results are no NaNs, so ENC8 of them gives no exponent-zero byte and takes no draw. -/
theorem arithmeticOutputSet : Obligations.ArithmeticOutputSet := by
  refine ⟨fun a b => ?_, fun a b => ?_, fun s a b =>
    ⟨⟨_, exec_add8 a b s, State.driveAdder_draws _ _⟩, ⟨_, exec_mul8 a b s, State.driveMultiplier_draws _ _⟩⟩⟩
  · obtain ⟨x, hx, h⟩ := exists_sum_pattern a b
    exact h ▸ not_exponentZero_enc (isNaN_of_ratOf hx) _
  · obtain ⟨x, hx, h⟩ := exists_product_pattern a b
    exact h ▸ not_exponentZero_enc (isNaN_of_ratOf hx) _

/-- Settles O35: a law is an equation of exact values, read through ENC8; the counterexamples evaluate. -/
theorem arithmeticLaws : Obligations.ArithmeticLaws := by
  refine ⟨fun a b => ⟨add8_comm a b, mul8_comm a b⟩, by decide, by decide, fun fmt a d => ?_, fun a => ?_,
    fun fmt a d => ?_, fun a => ⟨mul8_half a, (mul8_comm _ a).trans (mul8_half a)⟩⟩
  · exact add8_eq_enc (by rw [ratOf_dec, ratOfByte_zero, add_zero]) d
  · split_ifs with ha hb
    · rw [ha]; decide
    · rw [add8_self ha, if_pos hb]
    · rw [add8_self ha, if_neg hb]
  · exact mul8_eq_enc (by rw [ratOf_dec, ratOfByte_0x38, mul_one]) d

end Sys2Proof.Settled

/-!
PROOFS. What other hardware would raise as an exception: the case of ENC8 an input falls under (R201, R205), and the
refusal of a transaction whose operation reads a port without a defined value (R203).
-/
namespace Sys2Proof.Machine

/-! ### The cases of ENC8 -/

/-- R205 on a real value: the four cases of a pattern that is neither a NaN nor an infinity. -/
def magnitudeCase (q : Rat) : RangeCase :=
  if q = 0 then .zero
  else if |q| < (2 : Rat) ^ (-7 : Int) then .underflow
  else if |q| < (2 : Rat) ^ (8 : Int) then .normal
  else .overflow

/-- R105, R106: the tests on the biased exponent are the comparisons of the magnitude with `2^-7` and `2^8`. -/
theorem rangeCase_finite (r : Exact) : rangeCase Config.encodeExpAdjust (.finite r) = magnitudeCase r.toRat := by
  by_cases hz : r.toRat = 0
  · simp [rangeCase, magnitudeCase, r.isZero_iff, hz]
  · have hnum : r.num ≠ 0 := (Exact.nonzero_of_abs_pos (abs_pos.mpr hz)).1
    simp only [rangeCase, magnitudeCase, r.isZero_iff, hz, if_false, biasedExp_nonpos_iff hnum,
      biasedExp_ge_sixteen_iff hnum, ← not_lt (a := |r.toRat|), ite_not]

theorem rangeCase_eq_infinity_iff (v : Value) :
    rangeCase Config.encodeExpAdjust v = .infinity ↔ ∃ neg, v = .infinity neg := by
  cases v with
  | nan => simp [rangeCase]
  | infinity neg => simp [rangeCase]
  | zero neg => simp [rangeCase]
  | finite r =>
    rw [rangeCase_finite, magnitudeCase]
    split_ifs <;> simp

/-- R65: an infinity by its value is an infinity by its fields. -/
theorem val_eq_infinity_iff (x : Native) :
    (∃ neg, val x = .infinity neg) ↔ nativeExp x = nativeEmax x.fmt ∧ nativeFrac x = 0 := by
  refine ⟨fun ⟨neg, h⟩ => ?_, fun ⟨he, hf⟩ => ⟨_, val_of_infinity he hf⟩⟩
  unfold val at h
  dsimp only at h
  split_ifs at h with hinf
  exact hinf

/-- R205: the cases other than NaN and infinity are those of a real value. -/
theorem rangeCase_eq_iff_magnitudeCase (x : Native) {c : RangeCase} (hnan : c ≠ .nan) (hinf : c ≠ .infinity) :
    rangeCase Config.encodeExpAdjust (val x) = c ↔ ∃ q, ratOf x = some q ∧ magnitudeCase q = c := by
  cases hv : val x with
  | nan => simp [rangeCase, ratOf, hv, hnan.symm]
  | infinity neg => simp [rangeCase, ratOf, hv, hinf.symm]
  | zero neg => simp [rangeCase, ratOf_of_zero hv, magnitudeCase]
  | finite r => simp [rangeCase_finite, ratOf_of_finite hv]

theorem magnitudeCase_eq_zero_iff (q : Rat) : magnitudeCase q = .zero ↔ q = 0 := by
  unfold magnitudeCase
  split_ifs <;> simp_all

theorem magnitudeCase_eq_underflow_iff (q : Rat) :
    magnitudeCase q = .underflow ↔ q ≠ 0 ∧ |q| < (2 : Rat) ^ (-7 : Int) := by
  unfold magnitudeCase
  split_ifs <;> simp_all

/-- A magnitude of at least `2^-7` is not 0. -/
theorem magnitudeCase_eq_normal_iff (q : Rat) :
    magnitudeCase q = .normal ↔ (2 : Rat) ^ (-7 : Int) ≤ |q| ∧ |q| < (2 : Rat) ^ (8 : Int) := by
  have hzero : (2 : Rat) ^ (-7 : Int) ≤ |q| → q ≠ 0 := fun h => abs_pos.mp ((two_zpow_pos _).trans_le h)
  rw [← not_lt (a := |q|)] at hzero ⊢
  unfold magnitudeCase
  split_ifs <;> simp_all

/-- A magnitude of at least `2^8` is neither 0 nor below `2^-7`. -/
theorem magnitudeCase_eq_overflow_iff (q : Rat) : magnitudeCase q = .overflow ↔ (2 : Rat) ^ (8 : Int) ≤ |q| := by
  have hzero : (2 : Rat) ^ (8 : Int) ≤ |q| → q ≠ 0 := fun h => abs_pos.mp ((two_zpow_pos _).trans_le h)
  have hsmall : |q| < (2 : Rat) ^ (-7 : Int) → |q| < (2 : Rat) ^ (8 : Int) := fun h => h.trans (by norm_num)
  rw [← not_lt (a := |q|)] at hzero ⊢
  unfold magnitudeCase
  split_ifs <;> simp_all

/-! ### The port a refusal names -/

theorem step_of_decodeAt_error {s : State} {l : Line} {rest : List Line} {r : Reject} (hp : s.program = l :: rest)
    (hd : (s.present l).decodeAt l.device = .error r) : step s = .refused (refuseInput l.device r) := by
  simp only [step, hp, hd]

/-- R203: ENC8 reads `x`. -/
theorem decodePorts_x_unknown {o : OpBits} (ho : Op.ofBits o = .enc8) (a b : Input Byte) (why : Unknown) :
    decodePorts (.driven o) a b (.unknown why) = .error ⟨.x, why⟩ := by
  simp [decodePorts, ho, Except.map]

/-- R203: the operations other than ENC8 read `a`, and read it first. -/
theorem decodePorts_a_unknown {o : OpBits} (ho : Op.ofBits o ≠ .enc8) (b : Input Byte) (x : Input Native)
    (why : Unknown) : decodePorts (.driven o) (.unknown why) b x = .error ⟨.a, why⟩ := by
  cases h : Op.ofBits o with
  | enc8 => exact absurd h ho
  | dec8 => simp [decodePorts, h, Except.map]
  | add8 => simp [decodePorts, h, Except.bind]
  | mul8 => simp [decodePorts, h, Except.bind]

/-- R203: ADD8 and MUL8 read `b` after `a`. -/
theorem decodePorts_b_unknown {o : OpBits} (ho : Op.ofBits o = .add8 ∨ Op.ofBits o = .mul8) (va : Byte)
    (x : Input Native) (why : Unknown) : decodePorts (.driven o) (.driven va) (.unknown why) x = .error ⟨.b, why⟩ := by
  rcases ho with ho | ho <;> simp [decodePorts, ho, Except.map, Except.bind]

/-- On the wrapper a line is decoded by its select and what its operands put on the ports. -/
theorem decodeAt_present_wrapper (s : State) (t : Nat) (op : Input OpBits) (a b : Src Byte) (x : Src Native) :
    (s.present (.wrapper t op a b x)).decodeAt .wrapper =
      decodePorts op (resolveByte s.temps a) (resolveByte s.temps b) (resolveNative s.fmt s.temps x) := rfl

/-- R203: a wrapper line whose ports do not decode is refused on the wrapper. -/
theorem step_of_decodePorts_error {s : State} {t : Nat} {op : Input OpBits} {a b : Src Byte} {x : Src Native}
    {rest : List Line} {port : PortName} {why : Unknown} (hp : s.program = .wrapper t op a b x :: rest)
    (hd : decodePorts op (resolveByte s.temps a) (resolveByte s.temps b) (resolveNative s.fmt s.temps x) =
      .error ⟨port, why⟩) : step s = .refused (.unknownInput .wrapper port why) :=
  step_of_decodeAt_error hp ((decodeAt_present_wrapper s t op a b x).trans hd)

end Sys2Proof.Machine

namespace Sys2Proof.Settled
open Sys2Proof.Machine

/-- Settles O19: NaN and infinity are read off the fields, the other four cases off the real value. -/
theorem rangeCasesFollowTheMagnitude : Obligations.RangeCasesFollowTheMagnitude := by
  intro x
  refine ⟨(rangeCase_eq_nan_iff _ _).trans (val_eq_nan_iff x),
    (rangeCase_eq_iff_magnitudeCase x (by decide) (by decide)).trans ?_,
    (rangeCase_eq_infinity_iff _).trans (val_eq_infinity_iff x),
    (rangeCase_eq_iff_magnitudeCase x (by decide) (by decide)).trans ?_,
    (rangeCase_eq_iff_magnitudeCase x (by decide) (by decide)).trans ?_,
    (rangeCase_eq_iff_magnitudeCase x (by decide) (by decide)).trans ?_⟩
  · simp only [magnitudeCase_eq_zero_iff, exists_eq_right]
  · simp only [magnitudeCase_eq_underflow_iff]
  · simp only [magnitudeCase_eq_normal_iff]
  · simp only [magnitudeCase_eq_overflow_iff]

/-- Settles O47: a line whose ports do not decode is refused, and the ports are read in the order `op`, `a`, `b`. -/
theorem unknownInputIsRefused : Obligations.UnknownInputIsRefused := by
  intro s l rest hp
  refine ⟨fun port why hd => step_of_decodeAt_error hp hd, ?_, ?_, ?_, ?_⟩
  · rintro t why a b x rfl
    exact step_of_decodePorts_error hp rfl
  · rintro t o a b x why rfl ho hx
    exact step_of_decodePorts_error hp (hx ▸ decodePorts_x_unknown ho _ _ why)
  · rintro t o a b x why rfl ho ha
    exact step_of_decodePorts_error hp (ha ▸ decodePorts_a_unknown ho _ _ why)
  · rintro t o a b x va why rfl ho ha hb
    exact step_of_decodePorts_error hp (ha ▸ hb ▸ decodePorts_b_unknown ho va _ why)

/-- Settles O48: of the three things a step can do, one refuses, and it is the refusal of a rejected port. -/
theorem stepStopsOnlyOnUnknownInputs : Obligations.StepStopsOnlyOnUnknownInputs := by
  intro s
  rcases step_cases s with ⟨-, hs⟩ | ⟨l, rest, ⟨port, why⟩, hp, hd, hs⟩ | ⟨_, _, _, _, -, -, -, hs⟩
  · exact .inl ⟨s, hs⟩
  · exact .inr ⟨l, rest, port, why, hp, hd, hs⟩
  · exact .inl ⟨_, hs⟩

end Sys2Proof.Settled

/-!
PROOFS. Reset and hazards: what one step does to the host's side of a run, and the run of a well-formed program.
-/
namespace Sys2Proof.Machine

/-- R69, R70: what a line's ports decode to is an instruction of the line's operation. -/
theorem op_of_decodeAt {s : State} {l : Line} {i : Instr} (h : (s.present l).decodeAt l.device = .ok i) :
    l.op = some i.op := by
  cases l with
  | wrapper t op a b x =>
    rcases decodePorts_eq_ok.mp h with ⟨ho, _, -, rfl⟩ | ⟨ho, _, -, rfl⟩ | ⟨ho, _, _, -, -, rfl⟩ |
      ⟨ho, _, _, -, -, rfl⟩ <;> cases ho <;> rfl
  | encoder t x => obtain ⟨v, -, rfl⟩ := read_one_eq_ok.mp h; rfl
  | decoder t p => obtain ⟨v, -, rfl⟩ := read_one_eq_ok.mp h; rfl
  | adder t a b => obtain ⟨v, w, -, -, rfl⟩ := read_two_eq_ok.mp h; rfl
  | multiplier t a b => obtain ⟨v, w, -, -, rfl⟩ := read_two_eq_ok.mp h; rfl

/-- R43: the host's sampling and its going on leave every output as it is. -/
theorem State.outputOf_retired (s : State) (o o' : Op) (d : Nat) :
    (s.sample o d).advance.outputOf o' = s.outputOf o' := by
  simp only [State.outputOf, State.advance_via, State.advance_wrapper, State.advance_encoder, State.advance_decoder,
    State.advance_adder, State.advance_multiplier, State.sample_via, State.sample_wrapper, State.sample_encoder,
    State.sample_decoder, State.sample_adder, State.sample_multiplier]

/-- R73, R236: what a step over a line gives the host. An output of the line's operation, of its kind and of the block's
width, stands on the operation's port and is written into the line's temporary, and the line is taken off. -/
theorem step_host_side {s t : State} {l : Line} {rest : List Line} (hp : s.program = l :: rest)
    (h : step s = .next t) :
    t.program = rest ∧ t.fmt = s.fmt ∧ ∃ o v, l.op = some o ∧ v.kind = o.outKind ∧ resultFits s.fmt v ∧
      t.outputOf o = some v ∧ t.temps = s.temps.write l.dest v := by
  obtain ⟨i, p, hd, hx, rfl⟩ := (step_cons_iff hp).mp h
  obtain ⟨hfmt, -, htemps, hprog, v, hv, hkind, hfits⟩ := exec_host_side hx
  rw [State.present_fmt] at hfmt hfits
  refine ⟨by simp [hprog, hp], by simp [hfmt], i.op, v, op_of_decodeAt hd, hkind, hfits, ?_, ?_⟩
  · rw [State.outputOf_retired, hv]
  · rw [State.advance_temps, State.sample_temps_of_output _ _ _ _ hv, htemps, State.present_temps]

/-- R234: a temporary that holds a byte puts that byte on a byte port. -/
theorem resolveByte_temp {ts : Temps} {d : Nat} {v : Byte} (h : ts.read d = some (.byte v)) :
    resolveByte ts (.temp d) = .driven v := by
  simp only [resolveByte, h]

/-- R234: a temporary that holds a pattern of the port's width puts that pattern on `x`. -/
theorem resolveNative_temp {fmt : NativeFmt} {ts : Temps} {d : Nat} {v : Native} (h : ts.read d = some (.native v))
    (hv : v.fmt = fmt) : resolveNative fmt ts (.temp d) = .driven v := by
  simp only [resolveNative, h, onNativePort_of_fmt hv]

end Sys2Proof.Machine

namespace Sys2Proof.Settled
open Sys2Proof.Machine

/-- Settles O44: the step's one write is to the line's temporary. -/
theorem stepWritesTheLinesTemporary : Obligations.StepWritesTheLinesTemporary := by
  intro s l rest t hp h
  obtain ⟨hprog, -, o, v, hop, hkind, -, hout, htemps⟩ := step_host_side hp h
  rw [htemps]
  exact ⟨hprog, ⟨o, v, hop, hkind, hout, Temps.read_write_same _ _ _⟩, fun u hu => Temps.read_write_other _ _ _ _ hu⟩

/-- Settles O45: the temporary holds the output, whose width is the block's because the step drove it; so that the
native values of the state before fit is not used. -/
theorem dependentTransactionSeesTheOutput : Obligations.DependentTransactionSeesTheOutput := by
  intro s l rest t o _ hp h hop
  obtain ⟨-, hfmt, o', w, hop', -, hfits, hout, htemps⟩ := step_host_side hp h
  obtain rfl : o = o' := Option.some.inj (hop.symm.trans hop')
  have hread : t.temps.read l.dest = t.outputOf o := by rw [htemps, Temps.read_write_same, hout]
  refine ⟨fun v hv => resolveByte_temp (hread.trans hv), fun v hv => resolveNative_temp (hread.trans hv) ?_⟩
  obtain rfl : w = .native v := Option.some.inj (hout.symm.trans hv)
  exact hfits.trans hfmt.symm

/-- Settles O55: a step writes one temporary, in its place by number. -/
theorem stepsKeepTemporariesCanonical : Obligations.StepsKeepTemporariesCanonical := by
  intro s t hs h
  refine step_keeps (I := fun s => s.temps.wf = true) ?_ hs h
  intro s l i p hs _ hx
  rw [retired_temps hx]
  exact Temps.write_wf _ _ _ hs

/-- Settles O58, by induction on the lines of the program: a Ready state steps to a Ready state with the first one
taken off. -/
theorem readyProgramsRunToTheirEnd : Obligations.ReadyProgramsRunToTheirEnd := by
  intro s hs
  induction hp : s.program generalizing s with
  | nil => exact ⟨s, rfl, hp⟩
  | cons l rest ih =>
    obtain ⟨t, hstep, ht, hprog⟩ := readyProgramsGoOn s hs
    rw [hp] at hprog
    obtain ⟨u, hrun, hend⟩ := ih t ht hprog
    exact ⟨u, run_succ_iff.mpr ⟨t, hstep, hrun⟩, hend⟩

/-- Settles O43: the step's branch for the empty program. -/
theorem endedRunStays : Obligations.EndedRunStays := by
  intro s hp
  simp only [step, hp, State.ended]

/-- Settles O52: at reset no port carries a value, no temporary is written and no line is left. -/
theorem resetMeetsTheInvariants : Obligations.ResetMeetsTheInvariants := by
  intro fmt
  have hfits : ∀ t v, (State.resetAt fmt).temps.read t = some v → resultFits fmt v := fun t v h => nomatch h
  refine ⟨⟨?_, ?_, ?_, ?_, ?_, ?_⟩, ⟨?_, ?_, ?_, ?_, hfits⟩, rfl, rfl, hfits⟩ <;> exact fun v h => nomatch h

end Sys2Proof.Settled
